-- ==== Sys2Proof/Word.lean ====
section
/-! DEFINITION. The two word types of the machine: 8-bit cells (registers, memory bytes, timers; 10_state.md R20)
and 16-bit cells (I, PC, the stack's cells, an opcode). All values are unsigned (00_scope.md R10). -/

namespace Sys2Proof

/-- An 8-bit cell: a register V0..VF, a timer, a byte of memory (00_scope.md R7). -/
abbrev Byte := BitVec 8

/-- A 16-bit cell: I, PC, a stack cell, an opcode (00_scope.md R7). -/
abbrev Word := BitVec 16

end Sys2Proof
end

