-- ==== Sys2Proof/Config.lean ====
section
/-! DEFINITION. What is fixed for this hardware: the sizes of 00_scope.md R7, the policy parameters of R8 with their
defaults, and the free values of R9. None of it is state (10_state.md R20). -/

namespace Sys2Proof.Config

/-- The number of bytes of memory, MEM_SIZE (00_scope.md R7). -/
abbrev memSize : Nat := 4096

/-- The last address that exists, ADDR_MAX (00_scope.md R7). -/
abbrev addrMax : Nat := 0xFFF

/-- The number of stack cells, STACK_DEPTH (00_scope.md R7, 90_conflicts.md C2). -/
abbrev stackDepth : Nat := 16

/-- Columns of the framebuffer, FB_W (00_scope.md R7). -/
abbrev fbWidth : Nat := 64

/-- Rows of the framebuffer, FB_H (00_scope.md R7). -/
abbrev fbHeight : Nat := 32

/-- Where glyph 0 starts, FONT_BASE (00_scope.md R7, 20_memory.md R52). -/
abbrev fontBase : Nat := 0x000

/-- Bytes of one glyph, GLYPH_BYTES (00_scope.md R7). -/
abbrev glyphBytes : Nat := 5

/-- The last address of the font region 0x000..0x04F (20_memory.md R51). -/
abbrev fontEnd : Nat := 0x04F

/-- Where a program is loaded, and PC after reset, PROGRAM_BASE (00_scope.md R7). -/
abbrev programBase : Nat := 0x200

/-- The longest program LOAD accepts, MAX_PROGRAM (00_scope.md R7, 60_exceptions.md R296). -/
abbrev maxProgram : Nat := 3584

/-- UNKNOWN_OPCODE_POLICY (00_scope.md R8, 40_engine.md R117). -/
inductive UnknownOpcodePolicy where
  /-- An unknown opcode raises DecodeFault. -/
  | halt
  /-- An unknown opcode advances PC by 2 and is reported as skipped. -/
  | nop
deriving DecidableEq, Repr

/-- DRAW_EDGE_POLICY (00_scope.md R8, 46_draw.md R262). -/
inductive DrawEdgePolicy where
  /-- A pixel past an edge is drawn at the opposite edge. -/
  | wrap
  /-- A pixel past the right or bottom edge is dropped. -/
  | clip
deriving DecidableEq, Repr

/-- FX1E_VF_POLICY (00_scope.md R8, 43_index_memory.md R191). -/
inductive Fx1eVfPolicy where
  /-- FX1E does not write VF. -/
  | unchanged
  /-- FX1E sets VF to 1 when the exact sum passes 0xFFF, else to 0. -/
  | flagAbove0xFFF
deriving DecidableEq, Repr

/-- FONT_WRITE_POLICY (00_scope.md R8, 20_memory.md R55). -/
inductive FontWritePolicy where
  /-- A data write to the font region raises FontWrite. -/
  | fault
  /-- A data write to the font region is an ordinary write. -/
  | allow
deriving DecidableEq, Repr

/-- SKIP59_LOW_NIBBLE (00_scope.md R8, 30_encoding.md R86). -/
inductive Skip59LowNibble where
  /-- The low nibble of 5XYN and 9XYN is ignored. -/
  | ignore
  /-- 5XYN and 9XYN with N other than 0 are unknown opcodes. -/
  | fault
deriving DecidableEq, Repr

/-- KEY_INDEX_POLICY (00_scope.md R8, 45_input.md R243). -/
inductive KeyIndexPolicy where
  /-- A key index above 15 raises KeyIndexOutOfRange. -/
  | fault
  /-- A key index above 15 is taken modulo 16. -/
  | lowNibble
deriving DecidableEq, Repr

/-- FONT_DATA's default, glyph after glyph, five rows each, the top row first (20_memory.md R52, R53).
PRESUMED by the spec from general knowledge; log 4. -/
def fontData : Vector Byte 80 := #v[
  0xF0, 0x90, 0x90, 0x90, 0xF0,   0x20, 0x60, 0x20, 0x20, 0x70,   -- 0 1
  0xF0, 0x10, 0xF0, 0x80, 0xF0,   0xF0, 0x10, 0xF0, 0x10, 0xF0,   -- 2 3
  0x90, 0x90, 0xF0, 0x10, 0x10,   0xF0, 0x80, 0xF0, 0x10, 0xF0,   -- 4 5
  0xF0, 0x80, 0xF0, 0x90, 0xF0,   0xF0, 0x10, 0x20, 0x40, 0x40,   -- 6 7
  0xF0, 0x90, 0xF0, 0x90, 0xF0,   0xF0, 0x90, 0xF0, 0x10, 0xF0,   -- 8 9
  0xF0, 0x90, 0xF0, 0x90, 0x90,   0xE0, 0x90, 0xE0, 0x90, 0xE0,   -- A B
  0xF0, 0x80, 0x80, 0x80, 0xF0,   0xE0, 0x90, 0x90, 0x90, 0xE0,   -- C D
  0xF0, 0x80, 0xF0, 0x80, 0xF0,   0xF0, 0x80, 0xF0, 0x80, 0x80]   -- E F

/-- The seven policy parameters of 00_scope.md R8. -/
structure Policy where
  unknownOpcode : UnknownOpcodePolicy
  drawEdge      : DrawEdgePolicy
  fx1eVf        : Fx1eVfPolicy
  fontWrite     : FontWritePolicy
  skip59        : Skip59LowNibble
  keyIndex      : KeyIndexPolicy
  font          : Vector Byte 80
deriving DecidableEq, Repr

/-- This hardware's policies: the default of every parameter (00_scope.md R8; 92_eei_decisions.md D1, D3, D4, D11,
D12, D15, D16). DESIGN CHOICE of the spec, unsafe for a machine that chose otherwise; log 3. -/
def policy : Policy where
  unknownOpcode := .halt
  drawEdge      := .wrap
  fx1eVf        := .unchanged
  fontWrite     := .fault
  skip59        := .ignore
  keyIndex      := .fault
  font          := fontData

/-- A free value: the random byte of the n-th draw (00_scope.md R9, 41_register_alu.md R141). It has no body, so a
proof holds for every byte; log 5. -/
opaque freeByte : Nat → Byte

/-- A free value: the n-th draw's choice among several pressed keys (00_scope.md R9, 45_input.md R242), reduced modulo
their number where it is used; log 6. -/
opaque freeChoice : Nat → Nat

end Sys2Proof.Config
end

