-- ==== Sys2Proof/Syntax.lean ====
section
/-! DEFINITION. The 34 instructions of 30_encoding.md R84, one constructor per row of spec/opcode_table.json. -/

namespace Sys2Proof

/-- A register number, the X or Y field (10_state.md R21, 30_encoding.md R83). -/
abbrev Reg := Fin 16

/-- An instruction with its operands. An address NNN is a natural below 0x1000 and a row count N a natural below 16
(`Instr.wf` checks both); NN is a byte operand. SHR and SHL keep their optional, ignored Vy operand
(30_encoding.md R91, R94); the ignored low nibble of 5XYN and 9XYN is no operand. Log 11. -/
inductive Instr where
  /-- 00E0 CLS: clear the framebuffer (R161). -/
  | cls
  /-- 00EE RET: return from a subroutine (R162). -/
  | ret
  /-- 1NNN JP addr (R163). -/
  | jp (addr : Nat)
  /-- 2NNN CALL addr (R164). -/
  | call (addr : Nat)
  /-- 3XNN SE Vx, byte: skip if equal (R165). -/
  | seImm (x : Reg) (nn : Byte)
  /-- 4XNN SNE Vx, byte: skip if not equal (R166). -/
  | sneImm (x : Reg) (nn : Byte)
  /-- 5XY0 SE Vx, Vy: skip if equal (R167). -/
  | seReg (x y : Reg)
  /-- 6XNN LD Vx, byte (R130). -/
  | ldImm (x : Reg) (nn : Byte)
  /-- 7XNN ADD Vx, byte, no flag (R131). -/
  | addImm (x : Reg) (nn : Byte)
  /-- 8XY0 LD Vx, Vy (R132). -/
  | ldReg (x y : Reg)
  /-- 8XY1 OR Vx, Vy (R133). -/
  | orReg (x y : Reg)
  /-- 8XY2 AND Vx, Vy (R134). -/
  | andReg (x y : Reg)
  /-- 8XY3 XOR Vx, Vy (R135). -/
  | xorReg (x y : Reg)
  /-- 8XY4 ADD Vx, Vy, VF = carry (R136). -/
  | addReg (x y : Reg)
  /-- 8XY5 SUB Vx, Vy, VF = not borrow (R137). -/
  | subReg (x y : Reg)
  /-- 8XY6 SHR Vx (Vy ignored), VF = the bit shifted out (R138). -/
  | shr (x y : Reg)
  /-- 8XY7 SUBN Vx, Vy: Vx := Vy - Vx, VF = not borrow (R139). -/
  | subn (x y : Reg)
  /-- 8XYE SHL Vx (Vy ignored), VF = the bit shifted out (R140). -/
  | shl (x y : Reg)
  /-- 9XY0 SNE Vx, Vy: skip if not equal (R168). -/
  | sneReg (x y : Reg)
  /-- ANNN LD I, addr (R190). -/
  | ldI (addr : Nat)
  /-- BNNN JP V0, addr (R169). -/
  | jpV0 (addr : Nat)
  /-- CXNN RND Vx, byte: a random byte AND NN (R141). -/
  | rnd (x : Reg) (nn : Byte)
  /-- DXYN DRW Vx, Vy, nibble (R260). -/
  | drw (x y : Reg) (n : Nat)
  /-- EX9E SKP Vx: skip if the key is pressed (R240). -/
  | skp (x : Reg)
  /-- EXA1 SKNP Vx: skip if the key is not pressed (R241). -/
  | sknp (x : Reg)
  /-- FX07 LD Vx, DT (R220). -/
  | ldVxDt (x : Reg)
  /-- FX0A LD Vx, K: wait for a key (R242). -/
  | ldVxK (x : Reg)
  /-- FX15 LD DT, Vx (R221). -/
  | ldDtVx (x : Reg)
  /-- FX18 LD ST, Vx (R222). -/
  | ldStVx (x : Reg)
  /-- FX1E ADD I, Vx (R191). -/
  | addI (x : Reg)
  /-- FX29 LD F, Vx: I := the glyph's address (R192). -/
  | ldF (x : Reg)
  /-- FX33 LD B, Vx: store the decimal digits (R193). -/
  | ldB (x : Reg)
  /-- FX55 LD [I], Vx: store V0..Vx (R194). -/
  | saveRegs (x : Reg)
  /-- FX65 LD Vx, [I]: load V0..Vx (R195). -/
  | loadRegs (x : Reg)
deriving DecidableEq, Repr

end Sys2Proof
end

