-- ==== Sys2Proof/WellFormed.lean ====
section
/-! DEFINITION. Which instructions exist: an address operand NNN is a 12-bit value and a row count N a 4-bit value
(30_encoding.md R82). Register numbers and byte operands are bounded by their types. -/

namespace Sys2Proof

/-- NNN is a 12-bit value, 0..0xFFF (30_encoding.md R82). -/
def wfAddr (addr : Nat) : Bool := decide (addr ≤ 0xFFF)

/-- N is a 4-bit value, 0..15 (30_encoding.md R82). -/
def wfCount (n : Nat) : Bool := decide (n ≤ 15)

/-- Every operand fits its field (30_encoding.md R81, R82). -/
def Instr.wf : Instr → Bool
  | .jp addr | .call addr | .ldI addr | .jpV0 addr => wfAddr addr
  | .drw _ _ n => wfCount n
  | .cls | .ret | .seImm _ _ | .sneImm _ _ | .seReg _ _ | .sneReg _ _ => true
  | .ldImm _ _ | .addImm _ _ | .ldReg _ _ | .orReg _ _ | .andReg _ _ | .xorReg _ _ => true
  | .addReg _ _ | .subReg _ _ | .shr _ _ | .subn _ _ | .shl _ _ | .rnd _ _ => true
  | .skp _ | .sknp _ | .ldVxDt _ | .ldVxK _ | .ldDtVx _ | .ldStVx _ => true
  | .addI _ | .ldF _ | .ldB _ | .saveRegs _ | .loadRegs _ => true

end Sys2Proof
end

