-- ==== Sys2Proof/Decode.lean ====
section
/-! DEFINITION. The decoder and the encoder of 30_encoding.md: the fields of R81, the secondary decodes of R84 to R89
(total on all words, every other word unknown, R90), the opcode map of R84 as a list of rows, and the encoder R94
asks for. -/

namespace Sys2Proof

/-! ## Fields (30_encoding.md R81) -/

/-- The family F = op[15:12]. -/
def familyOf (w : Word) : Nat := w.toNat / 4096

/-- The register number X = op[11:8]. -/
def xOf (w : Word) : Reg := Fin.ofNat 16 (w.toNat / 256)

/-- The register number Y = op[7:4]. -/
def yOf (w : Word) : Reg := Fin.ofNat 16 (w.toNat / 16)

/-- The nibble N = op[3:0]. -/
def nOf (w : Word) : Nat := w.toNat % 16

/-- The byte NN = op[7:0]. -/
def nnOf (w : Word) : Byte := BitVec.ofNat 8 w.toNat

/-- The address NNN = op[11:0]. -/
def nnnOf (w : Word) : Nat := w.toNat % 4096

/-! ## Decoding (30_encoding.md R84 to R90) -/

/-- Family 0x0: only the two exact words are instructions (R85). -/
def decodeFamily0 (w : Word) : Option Instr :=
  if w = 0x00E0 then some .cls else if w = 0x00EE then some .ret else none

/-- The low nibble of families 0x5 and 0x9 is accepted: always under Ignore, only 0 under Fault (R86). -/
def skip59Accepts (p : Config.Skip59LowNibble) (w : Word) : Bool :=
  match p with
  | .ignore => true
  | .fault => nOf w == 0

/-- Family 0x8: the low nibble selects the instruction (R87). -/
def decodeFamily8 (w : Word) : Option Instr :=
  match nOf w with
  | 0x0 => some (.ldReg (xOf w) (yOf w))
  | 0x1 => some (.orReg (xOf w) (yOf w))
  | 0x2 => some (.andReg (xOf w) (yOf w))
  | 0x3 => some (.xorReg (xOf w) (yOf w))
  | 0x4 => some (.addReg (xOf w) (yOf w))
  | 0x5 => some (.subReg (xOf w) (yOf w))
  | 0x6 => some (.shr (xOf w) (yOf w))
  | 0x7 => some (.subn (xOf w) (yOf w))
  | 0xE => some (.shl (xOf w) (yOf w))
  | _ => none

/-- Family 0xE: the low byte selects the instruction (R88). -/
def decodeFamilyE (w : Word) : Option Instr :=
  match (nnOf w).toNat with
  | 0x9E => some (.skp (xOf w))
  | 0xA1 => some (.sknp (xOf w))
  | _ => none

/-- Family 0xF: the low byte selects the instruction (R89). -/
def decodeFamilyF (w : Word) : Option Instr :=
  match (nnOf w).toNat with
  | 0x07 => some (.ldVxDt (xOf w))
  | 0x0A => some (.ldVxK (xOf w))
  | 0x15 => some (.ldDtVx (xOf w))
  | 0x18 => some (.ldStVx (xOf w))
  | 0x1E => some (.addI (xOf w))
  | 0x29 => some (.ldF (xOf w))
  | 0x33 => some (.ldB (xOf w))
  | 0x55 => some (.saveRegs (xOf w))
  | 0x65 => some (.loadRegs (xOf w))
  | _ => none

/-- The instruction a word stands for, or none where it is an unknown opcode (R84, R90), under a given
SKIP59_LOW_NIBBLE. -/
def decodeUnder (p : Config.Skip59LowNibble) (w : Word) : Option Instr :=
  match familyOf w with
  | 0x0 => decodeFamily0 w
  | 0x1 => some (.jp (nnnOf w))
  | 0x2 => some (.call (nnnOf w))
  | 0x3 => some (.seImm (xOf w) (nnOf w))
  | 0x4 => some (.sneImm (xOf w) (nnOf w))
  | 0x5 => if skip59Accepts p w then some (.seReg (xOf w) (yOf w)) else none
  | 0x6 => some (.ldImm (xOf w) (nnOf w))
  | 0x7 => some (.addImm (xOf w) (nnOf w))
  | 0x8 => decodeFamily8 w
  | 0x9 => if skip59Accepts p w then some (.sneReg (xOf w) (yOf w)) else none
  | 0xA => some (.ldI (nnnOf w))
  | 0xB => some (.jpV0 (nnnOf w))
  | 0xC => some (.rnd (xOf w) (nnOf w))
  | 0xD => some (.drw (xOf w) (yOf w) (nOf w))
  | 0xE => decodeFamilyE w
  | 0xF => decodeFamilyF w
  | _ => none

/-- This hardware's decoder (30_encoding.md R84 with the default of R86). -/
def decode (w : Word) : Option Instr := decodeUnder Config.policy.skip59 w

/-! ## Bytes (20_memory.md R57, 30_encoding.md R80, R93) -/

/-- The opcode of two consecutive bytes, the most significant first (20_memory.md R57, 40_engine.md R112). -/
def opcodeOf (hi lo : Byte) : Word := BitVec.ofNat 16 (hi.toNat * 256 + lo.toNat)

/-- The byte of an opcode that lies at the lower address (20_memory.md R57). -/
def highByte (w : Word) : Byte := BitVec.ofNat 8 (w.toNat / 256)

/-- The byte of an opcode that lies at the higher address (20_memory.md R57). -/
def lowByte (w : Word) : Byte := BitVec.ofNat 8 w.toNat

/-- What decoding any bytes answers. -/
inductive Decoded where
  /-- An instruction, and the bytes after it. -/
  | instr (i : Instr) (rest : List Byte)
  /-- The first two bytes are an unknown opcode (30_encoding.md R90). -/
  | unknownOpcode (w : Word)
  /-- Fewer than two bytes: no opcode (30_encoding.md R93). -/
  | truncated
deriving DecidableEq, Repr

/-- Decoding, total on any bytes: every instruction is its first two bytes (30_encoding.md R93). -/
def decodeBytes : List Byte → Decoded
  | hi :: lo :: rest =>
    match decode (opcodeOf hi lo) with
    | some i => .instr i rest
    | none => .unknownOpcode (opcodeOf hi lo)
  | [] | [_] => .truncated

/-- The opcode made of the low `nbits` bits of `w`, the bits above being 0 (numbered as spec/opcode_table.json does:
one 16-bit word, bit 0 its least significant). -/
def tableWord (nbits w : Nat) : Word := BitVec.ofNat 16 (w % 2 ^ nbits)

/-- The instruction the decoder reads from a table word laid out in memory order. -/
def decodeTableWord (nbits w : Nat) : Option Instr :=
  match decodeBytes [highByte (tableWord nbits w), lowByte (tableWord nbits w)] with
  | .instr i _ => some i
  | .unknownOpcode _ | .truncated => none

/-! ## Encoding (30_encoding.md R84, R94) -/

/-- A word of one family with a 12-bit address, `F NNN`. -/
def encAddr (family addr : Nat) : Word := BitVec.ofNat 16 (family * 4096 + addr)

/-- A word with a register and a low byte, `F X NN`. -/
def encXNN (family : Nat) (x : Reg) (nn : Nat) : Word := BitVec.ofNat 16 (family * 4096 + x.val * 256 + nn)

/-- A word with two registers and a low nibble, `F X Y N`. -/
def encXYN (family : Nat) (x y : Reg) (n : Nat) : Word :=
  BitVec.ofNat 16 (family * 4096 + x.val * 256 + y.val * 16 + n)

/-- The word of an instruction, the inverse of R84's table; SE Vx, Vy and SNE Vx, Vy are emitted with N = 0 (R94). -/
def encode : Instr → Word
  | .cls => 0x00E0
  | .ret => 0x00EE
  | .jp addr => encAddr 0x1 addr
  | .call addr => encAddr 0x2 addr
  | .seImm x nn => encXNN 0x3 x nn.toNat
  | .sneImm x nn => encXNN 0x4 x nn.toNat
  | .seReg x y => encXYN 0x5 x y 0x0
  | .ldImm x nn => encXNN 0x6 x nn.toNat
  | .addImm x nn => encXNN 0x7 x nn.toNat
  | .ldReg x y => encXYN 0x8 x y 0x0
  | .orReg x y => encXYN 0x8 x y 0x1
  | .andReg x y => encXYN 0x8 x y 0x2
  | .xorReg x y => encXYN 0x8 x y 0x3
  | .addReg x y => encXYN 0x8 x y 0x4
  | .subReg x y => encXYN 0x8 x y 0x5
  | .shr x y => encXYN 0x8 x y 0x6
  | .subn x y => encXYN 0x8 x y 0x7
  | .shl x y => encXYN 0x8 x y 0xE
  | .sneReg x y => encXYN 0x9 x y 0x0
  | .ldI addr => encAddr 0xA addr
  | .jpV0 addr => encAddr 0xB addr
  | .rnd x nn => encXNN 0xC x nn.toNat
  | .drw x y n => encXYN 0xD x y n
  | .skp x => encXNN 0xE x 0x9E
  | .sknp x => encXNN 0xE x 0xA1
  | .ldVxDt x => encXNN 0xF x 0x07
  | .ldVxK x => encXNN 0xF x 0x0A
  | .ldDtVx x => encXNN 0xF x 0x15
  | .ldStVx x => encXNN 0xF x 0x18
  | .addI x => encXNN 0xF x 0x1E
  | .ldF x => encXNN 0xF x 0x29
  | .ldB x => encXNN 0xF x 0x33
  | .saveRegs x => encXNN 0xF x 0x55
  | .loadRegs x => encXNN 0xF x 0x65

/-! ## The opcode map of R84 as rows -/

/-- A row of R84's table: a word w is this row's when w & mask = pattern. -/
structure OpcodeRow where
  pattern : Word
  mask    : Word
deriving DecidableEq, Repr

/-- The mask of the 5XY0 and 9XY0 rows (R84, R86). -/
def skip59Mask : Config.Skip59LowNibble → Word
  | .ignore => 0xF000
  | .fault => 0xF00F

/-- R84's row of an instruction. -/
def rowOf (p : Config.Skip59LowNibble) : Instr → OpcodeRow
  | .cls => ⟨0x00E0, 0xFFFF⟩
  | .ret => ⟨0x00EE, 0xFFFF⟩
  | .jp _ => ⟨0x1000, 0xF000⟩
  | .call _ => ⟨0x2000, 0xF000⟩
  | .seImm _ _ => ⟨0x3000, 0xF000⟩
  | .sneImm _ _ => ⟨0x4000, 0xF000⟩
  | .seReg _ _ => ⟨0x5000, skip59Mask p⟩
  | .ldImm _ _ => ⟨0x6000, 0xF000⟩
  | .addImm _ _ => ⟨0x7000, 0xF000⟩
  | .ldReg _ _ => ⟨0x8000, 0xF00F⟩
  | .orReg _ _ => ⟨0x8001, 0xF00F⟩
  | .andReg _ _ => ⟨0x8002, 0xF00F⟩
  | .xorReg _ _ => ⟨0x8003, 0xF00F⟩
  | .addReg _ _ => ⟨0x8004, 0xF00F⟩
  | .subReg _ _ => ⟨0x8005, 0xF00F⟩
  | .shr _ _ => ⟨0x8006, 0xF00F⟩
  | .subn _ _ => ⟨0x8007, 0xF00F⟩
  | .shl _ _ => ⟨0x800E, 0xF00F⟩
  | .sneReg _ _ => ⟨0x9000, skip59Mask p⟩
  | .ldI _ => ⟨0xA000, 0xF000⟩
  | .jpV0 _ => ⟨0xB000, 0xF000⟩
  | .rnd _ _ => ⟨0xC000, 0xF000⟩
  | .drw _ _ _ => ⟨0xD000, 0xF000⟩
  | .skp _ => ⟨0xE09E, 0xF0FF⟩
  | .sknp _ => ⟨0xE0A1, 0xF0FF⟩
  | .ldVxDt _ => ⟨0xF007, 0xF0FF⟩
  | .ldVxK _ => ⟨0xF00A, 0xF0FF⟩
  | .ldDtVx _ => ⟨0xF015, 0xF0FF⟩
  | .ldStVx _ => ⟨0xF018, 0xF0FF⟩
  | .addI _ => ⟨0xF01E, 0xF0FF⟩
  | .ldF _ => ⟨0xF029, 0xF0FF⟩
  | .ldB _ => ⟨0xF033, 0xF0FF⟩
  | .saveRegs _ => ⟨0xF055, 0xF0FF⟩
  | .loadRegs _ => ⟨0xF065, 0xF0FF⟩

/-- The 34 rows of R84's table, in its order. -/
def opcodeRows (p : Config.Skip59LowNibble) : List OpcodeRow :=
  [⟨0x00E0, 0xFFFF⟩, ⟨0x00EE, 0xFFFF⟩, ⟨0x1000, 0xF000⟩, ⟨0x2000, 0xF000⟩, ⟨0x3000, 0xF000⟩, ⟨0x4000, 0xF000⟩,
   ⟨0x5000, skip59Mask p⟩, ⟨0x6000, 0xF000⟩, ⟨0x7000, 0xF000⟩, ⟨0x8000, 0xF00F⟩, ⟨0x8001, 0xF00F⟩, ⟨0x8002, 0xF00F⟩,
   ⟨0x8003, 0xF00F⟩, ⟨0x8004, 0xF00F⟩, ⟨0x8005, 0xF00F⟩, ⟨0x8006, 0xF00F⟩, ⟨0x8007, 0xF00F⟩, ⟨0x800E, 0xF00F⟩,
   ⟨0x9000, skip59Mask p⟩, ⟨0xA000, 0xF000⟩, ⟨0xB000, 0xF000⟩, ⟨0xC000, 0xF000⟩, ⟨0xD000, 0xF000⟩, ⟨0xE09E, 0xF0FF⟩,
   ⟨0xE0A1, 0xF0FF⟩, ⟨0xF007, 0xF0FF⟩, ⟨0xF00A, 0xF0FF⟩, ⟨0xF015, 0xF0FF⟩, ⟨0xF018, 0xF0FF⟩, ⟨0xF01E, 0xF0FF⟩,
   ⟨0xF029, 0xF0FF⟩, ⟨0xF033, 0xF0FF⟩, ⟨0xF055, 0xF0FF⟩, ⟨0xF065, 0xF0FF⟩]

/-- A word selects a row when w & mask = match (R84). -/
def rowMatches (r : OpcodeRow) (w : Word) : Bool := w &&& r.mask == r.pattern

end Sys2Proof
end

