-- ==== Sys2Proof/Machine/State.lean ====
section
/-! DEFINITION. The machine's state, 10_state.md R20 to R37: the tuple of R20, field by field, and one field of the
model's own (`draws`). Everything is plain data. -/

namespace Sys2Proof.Machine

/-- Memory: the bytes that differ from the reset contents, addresses strictly rising (20_memory.md R50; log 9). -/
abbrev Memory := List Host.Cell

/-- FB[x][y]: 64 columns of 32 one-bit pixels, true for 1 (10_state.md R31; log 16). -/
abbrev Framebuffer := Vector (Vector Bool 32) 64

/-- A pixel's place: the column x and the row y (10_state.md R31). -/
abbrev Pixel := Fin 64 × Fin 32

/-- Key[0..15], true for pressed (10_state.md R32). -/
abbrev Keypad := Vector Bool 16

/-- The kinds of runtime fault (60_exceptions.md R280). -/
inductive FaultKind where
  /-- An unknown opcode under UNKNOWN_OPCODE_POLICY = Halt. -/
  | decodeFault
  /-- 2NNN with SP = 16. -/
  | stackOverflow
  /-- 00EE with SP = 0. -/
  | stackUnderflow
  /-- A resolved address above 0xFFF: fetch, DXYN, FX33, FX55, FX65. -/
  | outOfBounds
  /-- A write to the font region under FONT_WRITE_POLICY = Fault: FX33, FX55. -/
  | fontWrite
  /-- V[X] above 15 in EX9E or EXA1 under KEY_INDEX_POLICY = Fault. -/
  | keyIndexOutOfRange
deriving DecidableEq, Repr

/-- The code of a fault kind (60_exceptions.md R280; 92_eei_decisions.md D9). -/
def FaultKind.code : FaultKind → Nat
  | .decodeFault => 1
  | .stackOverflow => 2
  | .stackUnderflow => 3
  | .outOfBounds => 4
  | .fontWrite => 5
  | .keyIndexOutOfRange => 6

/-- The Fault record (10_state.md R33, 60_exceptions.md R281). -/
structure FaultRecord where
  kind   : FaultKind
  /-- The address of the instruction whose step faulted. -/
  pc     : Word
  /-- The word that faulted, absent for a fetch fault. -/
  opcode : Option Word
  /-- The lowest failing address, absent unless the kind names one; it can pass 16 bits (log 17). -/
  addr   : Option Nat
deriving DecidableEq, Repr

/-- The machine's state (10_state.md R20). -/
structure State where
  /-- Mem, 4096 bytes. -/
  mem   : Memory
  /-- V0..VF. -/
  v     : Vector Byte 16
  /-- I. -/
  i     : Word
  /-- PC. -/
  pc    : Word
  /-- Stack[0..15]. -/
  stack : Vector Word 16
  /-- SP, how many return addresses are held, 0..16. -/
  sp    : Fin 17
  /-- DT. -/
  dt    : Byte
  /-- ST. -/
  st    : Byte
  /-- FB. -/
  fb    : Framebuffer
  /-- Key. -/
  key   : Keypad
  /-- Fault: none, or the record of the fault that halted the machine. -/
  fault : Option FaultRecord
  /-- The model's own: how many draws the steps so far have taken (00_scope.md R9, 40_engine.md R120; log 7). -/
  draws : Nat
deriving DecidableEq, Repr

/-- What would stop the machine outside the spec's own faults. The type is closed and has no constructor: every fault
of the spec is TAKEN, a next state with the Fault record set (40_engine.md R116, 60_exceptions.md R284), and no step
stops the machine. Safe; log 1. -/
inductive Fault where
deriving DecidableEq, Repr

/-- What this model turns away. -/
inductive Refusal where
  /-- An instruction that has no meaning yet, by its mnemonic in spec/opcode_table.json. Raised by exec's arms only, and
  by none of them now. Safe: the model stops where the hardware goes on. -/
  | notModelled (mnemonic : String)
  /-- LOAD after the first STEP since RESET, which is no move of the model (60_exceptions.md R296, 92_eei_decisions.md
  D36). Raised by the host transaction LOAD, by no step. Safe; log 14. -/
  | loadNotAdmitted
deriving DecidableEq, Repr

/-- The machine after initialisation or RESET (10_state.md R37, 70_reset_and_hazards.md R320): memory holds its reset
contents (nothing is listed), PC = 0x200, all else zero. `draws` is the model's own, DESIGN CHOICE 0, log 7. -/
def State.reset : State where
  mem   := []
  v     := Vector.replicate 16 0
  i     := 0
  pc    := 0x200
  stack := Vector.replicate 16 0
  sp    := 0
  dt    := 0
  st    := 0
  fb    := Vector.replicate 64 (Vector.replicate 32 false)
  key   := Vector.replicate 16 false
  fault := none
  draws := 0

end Sys2Proof.Machine
end

