-- ==== Sys2Proof/Machine/Ops.lean ====
section
/-! DEFINITION. The named operations over memory, registers, stack, framebuffer and keypad that the meanings share,
and the one way a fault is taken (40_engine.md R116). -/

namespace Sys2Proof.Machine

/-- What a step or a meaning answers. -/
abbrev Result := Host.Outcome State Fault Refusal

/-! ## Memory (20_memory.md R50 to R61; log 9) -/

/-- What an address reads as when no byte is listed for it: the reset contents, FONT_DATA at 0x000..0x04F and zero
elsewhere (10_state.md R37, 20_memory.md R53). -/
def Memory.unlisted (a : Nat) : Byte := if h : a < 80 then Config.fontData[a] else 0

/-- The byte at an address. -/
def Memory.read : Memory → Nat → Byte
  | [], a => Memory.unlisted a
  | (k, b) :: m, a => if k = a then b else Memory.read m a

/-- Put a byte in its place in the list, over the byte listed there if there is one. -/
def Memory.insert : Memory → Nat → Byte → Memory
  | [], a, b => [(a, b)]
  | (k, c) :: m, a, b =>
    if a < k then (a, b) :: (k, c) :: m else if a = k then (a, b) :: m else (k, c) :: Memory.insert m a b

/-- Write one byte (20_memory.md R60): a byte equal to the reset contents is not listed. -/
def Memory.write (m : Memory) (a : Nat) (b : Byte) : Memory :=
  if b = Memory.unlisted a then m.filter (fun c => c.1 != a) else Memory.insert m a b

/-- Addresses strictly rise from above `lo` on, each exists, and no byte listed equals the reset contents. -/
def Memory.wfFrom (lo : Nat) : Memory → Bool
  | [] => true
  | (a, b) :: m => decide (lo ≤ a ∧ a ≤ Config.addrMax ∧ b ≠ Memory.unlisted a) && Memory.wfFrom (a + 1) m

/-- The canonical form of memory: equal memories are equal lists. -/
def Memory.wf (m : Memory) : Bool := Memory.wfFrom 0 m

/-- Write bytes at rising addresses from `a` on. -/
def Memory.writeBytes (m : Memory) (a : Nat) : List Byte → Memory
  | [] => m
  | b :: bs => Memory.writeBytes (Memory.write m a b) (a + 1) bs

/-! ## Address resolution (20_memory.md R54, R55, R59) -/

/-- Why an address does not resolve, and which. -/
structure AccessFault where
  kind : FaultKind
  addr : Nat
deriving DecidableEq, Repr

/-- Resolve for a read: an address above 0xFFF is out of bounds (R54). -/
def resolveRead (a : Nat) : Option AccessFault :=
  if a > Config.addrMax then some ⟨.outOfBounds, a⟩ else none

/-- ResolveWrite: as for a read, and the font region is closed under FONT_WRITE_POLICY = Fault (R55). -/
def resolveWrite (p : Config.FontWritePolicy) (a : Nat) : Option AccessFault :=
  if a > Config.addrMax then some ⟨.outOfBounds, a⟩
  else if p = .fault ∧ a ≤ Config.fontEnd then some ⟨.fontWrite, a⟩
  else none

/-- The first failure among `n` addresses from `lo` on, in ascending order (R59). -/
def firstFailure (check : Nat → Option AccessFault) : (n : Nat) → (lo : Nat) → Option AccessFault
  | 0, _ => none
  | n + 1, lo =>
    match check lo with
    | some f => some f
    | none => firstFailure check n (lo + 1)

/-- CheckRead over the `n` addresses from `lo` on; nothing is checked when n = 0 (R59). -/
def checkRead (lo n : Nat) : Option AccessFault := firstFailure resolveRead n lo

/-- CheckWrite over the `n` addresses from `lo` on (R59). -/
def checkWrite (p : Config.FontWritePolicy) (lo n : Nat) : Option AccessFault := firstFailure (resolveWrite p) n lo

/-! ## One update for each cell of the state -/

/-- Mem <- m. -/
def State.setMem (s : State) (m : Memory) : State := { s with mem := m }

/-- V[x] <- b (00_scope.md R11). -/
def State.setV (s : State) (x : Reg) (b : Byte) : State := { s with v := s.v.set x b }

/-- The register file <- v. -/
def State.setRegs (s : State) (v : Vector Byte 16) : State := { s with v := v }

/-- I <- w (00_scope.md R11). -/
def State.setI (s : State) (w : Word) : State := { s with i := w }

/-- PC <- w. -/
def State.setPc (s : State) (w : Word) : State := { s with pc := w }

/-- Stack and SP <- stack and sp. -/
def State.setStack (s : State) (stack : Vector Word 16) (sp : Fin 17) : State := { s with stack := stack, sp := sp }

/-- DT <- b. -/
def State.setDt (s : State) (b : Byte) : State := { s with dt := b }

/-- ST <- b. -/
def State.setSt (s : State) (b : Byte) : State := { s with st := b }

/-- FB <- fb. -/
def State.setFb (s : State) (fb : Framebuffer) : State := { s with fb := fb }

/-- Key <- key. -/
def State.setKeys (s : State) (key : Keypad) : State := { s with key := key }

/-- Fault <- f. -/
def State.setFault (s : State) (f : Option FaultRecord) : State := { s with fault := f }

/-- The model's own: one more draw has been taken (log 7). -/
def State.countDraw (s : State) : State := { s with draws := s.draws + 1 }

/-! ## Ends of a step (40_engine.md R110, R114 to R116) -/

/-- The handler leaves PC alone, so the engine adds 2 (R115). A 16-bit cell stores the sum modulo 2^16 (00_scope.md R10);
no run reaches the wrap (10_state.md R27; log 10). -/
def advance (s : State) : Result := .next (s.setPc (s.pc + 2))

/-- `pc <- target`: the handler sets PC, and the engine adds nothing (R115). -/
def jumpTo (target : Nat) (s : State) : Result := .next (s.setPc (BitVec.ofNat 16 target))

/-- `wait`: no change, the instruction is not retired (R114). -/
def waitHere (s : State) : Result := .next s

/-- TAKING A FAULT (R116, 60_exceptions.md R281, R282): the record is written and nothing else changes. PC stays at the
faulting instruction, the record saves it, and the machine is halted from then on (R284). There is no vector, mode or
handler (R285). -/
def raiseFault (kind : FaultKind) (opcode : Option Word) (addr : Option Nat) (s : State) : Result :=
  .next (s.setFault (some { kind := kind, pc := s.pc, opcode := opcode, addr := addr }))

/-- A fault an instruction raises: the record's opcode is the instruction's word (R281; log 8). -/
def raiseIn (i : Instr) (kind : FaultKind) (addr : Option Nat) (s : State) : Result :=
  raiseFault kind (some (encode i)) addr s

/-- The return from a fault: no instruction returns (60_exceptions.md R286), the host's RESET alone clears the record,
with every other cell (R297, 70_reset_and_hazards.md R320). The model's draw counter goes on, so that what is drawn after
a RESET is not what was drawn before it (log 7). -/
def resetTo (initial s : State) : State := { initial with draws := s.draws }

/-- Do `k` when the check passed, else raise the failure it found (20_memory.md R59). -/
def guarded (i : Instr) (check : Option AccessFault) (k : State → Result) (s : State) : Result :=
  match check with
  | some f => raiseIn i f.kind (some f.addr) s
  | none => k s

/-! ## The call stack (10_state.md R29) -/

/-- Push(v): write Stack[SP], then SP + 1; none is StackOverflow. -/
def push (w : Word) (s : State) : Option State :=
  if h : s.sp.val < 16 then some (s.setStack (s.stack.set s.sp.val w h) ⟨s.sp.val + 1, by omega⟩) else none

/-- Pop(): SP - 1, then read Stack[SP]; none is StackUnderflow. The popped cell keeps its value. -/
def pop (s : State) : Option (Word × State) :=
  if _h : s.sp.val = 0 then none
  else some (s.stack[s.sp.val - 1], s.setStack s.stack ⟨s.sp.val - 1, by omega⟩)

/-! ## Registers in runs (43_index_memory.md R194, R195) -/

/-- The bytes V0..VX in ascending order. -/
def regsUpTo (v : Vector Byte 16) (x : Reg) : List Byte := v.toList.take (x.val + 1)

/-- V0..V(n-1) <- f 0..f (n-1), in ascending order. -/
def fillRegs (f : Nat → Byte) : Nat → Vector Byte 16 → Vector Byte 16
  | 0, v => v
  | n + 1, v => (fillRegs f n v).setIfInBounds n (f n)

/-! ## The framebuffer (10_state.md R31, 46_draw.md R260, R263) -/

/-- Every pixel 0 (42_control_flow.md R161). -/
def clearScreen : Framebuffer := Vector.replicate 64 (Vector.replicate 32 false)

/-- FB[x][y]. -/
def pixelAt (fb : Framebuffer) (q : Pixel) : Bool := fb[q.1][q.2]

/-- FB[x][y] <- FB[x][y] ^ 1. -/
def flipPixel (fb : Framebuffer) (q : Pixel) : Framebuffer :=
  fb.set q.1 (fb[q.1].set q.2 (!fb[q.1][q.2]))

/-- Flip the pixels of a list one after another; the flag becomes true if one of them was 1 (46_draw.md R260, R263). -/
def blit : List Pixel → Framebuffer × Bool → Framebuffer × Bool
  | [], r => r
  | q :: qs, (fb, c) => blit qs (flipPixel fb q, c || pixelAt fb q)

/-! ## The keypad (10_state.md R32, 45_input.md R242) -/

/-- The key indexes 0..15 in ascending order. -/
def allKeys : List (Fin 16) := [0, 1, 2, 3, 4, 5, 6, 7, 8, 9, 10, 11, 12, 13, 14, 15]

/-- P = { k | Key[k] }, in ascending order (R242). -/
def pressedKeys (key : Keypad) : List (Fin 16) := allKeys.filter (fun k => key[k])

/-! ## Draws (00_scope.md R9, 40_engine.md R120) -/

/-- The random byte the next draw takes: any byte (41_register_alu.md R141; log 5). -/
def drawnByte (s : State) : Byte := Config.freeByte s.draws

/-- The key the next draw takes among two or more pressed keys: any one of them (45_input.md R242; log 6). -/
def drawnKey (s : State) (first : Fin 16) (others : List (Fin 16)) : Fin 16 :=
  (first :: others).getD (Config.freeChoice s.draws % (others.length + 1)) first

end Sys2Proof.Machine
end

