-- ==== Sys2Proof/Machine/Operands.lean ====
section
/-! DEFINITION. The operand forms: registers by number, the base-plus-offset address of the memory instructions, the
skip target, the key index, the sprite's pixels (30_encoding.md R83). -/

namespace Sys2Proof.Machine

/-- V[x] (00_scope.md R11). -/
def State.getV (s : State) (x : Reg) : Byte := s.v[x]

/-- The exact address I + k, neither masked nor wrapped (20_memory.md R54, 43_index_memory.md "Addressing"). -/
def indexed (s : State) (k : Nat) : Nat := s.i.toNat + k

/-- A skip: pc + 4 when the condition holds, else pc + 2 (40_engine.md R115; 42_control_flow.md R165). -/
def skipIf (c : Bool) (s : State) : Result := .next (s.setPc (if c then s.pc + 4 else s.pc + 2))

/-- The index register's sum with a byte, exact (43_index_memory.md R191). -/
def indexSum (i : Word) (b : Byte) : Nat := i.toNat + b.toNat

/-- The address of the glyph of the low nibble of a byte (20_memory.md R52, 43_index_memory.md R192). -/
def glyphAddr (b : Byte) : Word :=
  BitVec.ofNat 16 (Config.fontBase + Config.glyphBytes * (b &&& 0xF).toNat)

/-- KeyIndex(v), where none is KeyIndexOutOfRange (45_input.md R243). -/
def keyIndex (p : Config.KeyIndexPolicy) (b : Byte) : Option (Fin 16) :=
  if h : b.toNat ≤ 0xF then some ⟨b.toNat, by omega⟩
  else match p with
    | .fault => none
    | .lowNibble => some (Fin.ofNat 16 (b &&& 0xF).toNat)

/-- The decimal digits of a byte: hundreds, tens, units (43_index_memory.md R193). -/
def bcdDigits (b : Byte) : List Byte :=
  [BitVec.ofNat 8 (b.toNat / 100), BitVec.ofNat 8 (b.toNat / 10 % 10), BitVec.ofNat 8 (b.toNat % 10)]

/-! ## The sprite (46_draw.md R260 to R262) -/

/-- Place(x, y): where a pixel falls, none where it is not visible (R262). -/
def place (p : Config.DrawEdgePolicy) (x y : Nat) : Option Pixel :=
  match p with
  | .wrap => some (Fin.ofNat 64 x, Fin.ofNat 32 y)
  | .clip => if h : x < 64 ∧ y < 32 then some (⟨x, h.1⟩, ⟨y, h.2⟩) else none

/-- Bit b of a sprite row counted from the left: b = 0 is bit 7 (R260, R261). -/
def spriteBit (row : Byte) (b : Nat) : Bool := row.getLsbD (7 - b)

/-- The visible pixels of one sprite row, left to right, drawn from column x0 on row y (R261). -/
def rowPixels (p : Config.DrawEdgePolicy) (x0 y : Nat) (row : Byte) : List Pixel :=
  (List.range 8).filterMap (fun b => if spriteBit row b then place p (x0 + b) y else none)

/-- The visible pixels of a sprite of n rows at address a, top row first, drawn at (x0, y0) (R260, R261). -/
def spritePixels (p : Config.DrawEdgePolicy) (m : Memory) (a x0 y0 n : Nat) : List Pixel :=
  (List.range n).flatMap (fun r => rowPixels p x0 (y0 + r) (m.read (a + r)))

end Sys2Proof.Machine
end

