-- ==== Sys2Proof/Machine/Flags.lean ====
section
/-! DEFINITION. The values VF takes as a flag (10_state.md R23, 41_register_alu.md R142), and the one way a result and a
flag are written: V[X] first, VF last (10_state.md R22, 40_engine.md R118). -/

namespace Sys2Proof.Machine

/-- A flag as a register value, 1 or 0. -/
def flagByte (c : Bool) : Byte := if c then 1 else 0

/-- The carry of 8XY4: the exact sum exceeds 255 (R136). -/
def carryFlag (a b : Byte) : Bool := decide (a.toNat + b.toNat > 255)

/-- The flag of 8XY5 and 8XY7: no borrow, the minuend is at least the subtrahend (R137, R139). -/
def notBorrow (a b : Byte) : Bool := decide (a.toNat ≥ b.toNat)

/-- The flag of 8XY6: bit 0 of the operand (R138). -/
def lowBit (a : Byte) : Bool := a.getLsbD 0

/-- The flag of 8XYE: bit 7 of the operand (R140). -/
def highBit (a : Byte) : Bool := a.getLsbD 7

/-- The flag of FX1E under FlagAbove0xFFF: the exact sum passes 0xFFF (43_index_memory.md R191). -/
def indexOverflow (sum : Nat) : Bool := decide (sum > 0xFFF)

/-- VF <- flag. -/
def State.setFlag (s : State) (c : Bool) : State := s.setV 15 (flagByte c)

/-- V[x] <- result, then VF <- flag (R22). -/
def State.setVFlag (s : State) (x : Reg) (result : Byte) (c : Bool) : State := (s.setV x result).setFlag c

end Sys2Proof.Machine
end

