-- ==== Sys2Proof/Machine/Alu.lean ====
section
/-! DEFINITION. The register and ALU instructions, 41_register_alu.md R130 to R141. None can fault. -/

namespace Sys2Proof.Machine

/-- 6XNN LD Vx, byte (R130). -/
def execLdImm (x : Reg) (nn : Byte) (s : State) : Result := advance (s.setV x nn)

/-- 7XNN ADD Vx, byte: modulo 256, no flag (R131). -/
def execAddImm (x : Reg) (nn : Byte) (s : State) : Result := advance (s.setV x (s.getV x + nn))

/-- 8XY0 LD Vx, Vy (R132). -/
def execLdReg (x y : Reg) (s : State) : Result := advance (s.setV x (s.getV y))

/-- 8XY1 OR Vx, Vy (R133). -/
def execOrReg (x y : Reg) (s : State) : Result := advance (s.setV x (s.getV x ||| s.getV y))

/-- 8XY2 AND Vx, Vy (R134). -/
def execAndReg (x y : Reg) (s : State) : Result := advance (s.setV x (s.getV x &&& s.getV y))

/-- 8XY3 XOR Vx, Vy (R135). -/
def execXorReg (x y : Reg) (s : State) : Result := advance (s.setV x (s.getV x ^^^ s.getV y))

/-- 8XY4 ADD Vx, Vy, VF = carry (R136). -/
def execAddReg (x y : Reg) (s : State) : Result :=
  advance (s.setVFlag x (s.getV x + s.getV y) (carryFlag (s.getV x) (s.getV y)))

/-- 8XY5 SUB Vx, Vy, VF = not borrow (R137). -/
def execSubReg (x y : Reg) (s : State) : Result :=
  advance (s.setVFlag x (s.getV x - s.getV y) (notBorrow (s.getV x) (s.getV y)))

/-- 8XY6 SHR Vx: Vy is ignored (R138, 30_encoding.md R91). -/
def execShr (x _y : Reg) (s : State) : Result :=
  advance (s.setVFlag x (s.getV x >>> 1) (lowBit (s.getV x)))

/-- 8XY7 SUBN Vx, Vy: Vx := Vy - Vx, VF = not borrow (R139). -/
def execSubn (x y : Reg) (s : State) : Result :=
  advance (s.setVFlag x (s.getV y - s.getV x) (notBorrow (s.getV y) (s.getV x)))

/-- 8XYE SHL Vx: Vy is ignored (R140, 30_encoding.md R91). -/
def execShl (x _y : Reg) (s : State) : Result :=
  advance (s.setVFlag x (s.getV x <<< 1) (highBit (s.getV x)))

/-- CXNN RND Vx, byte: a drawn byte AND NN (R141; log 5). -/
def execRnd (x : Reg) (nn : Byte) (s : State) : Result :=
  advance (s.countDraw.setV x (drawnByte s &&& nn))

end Sys2Proof.Machine
end

