-- ==== Sys2Proof/Machine/Control.lean ====
section
/-! DEFINITION. The control flow instructions, 42_control_flow.md R160 to R169. -/

namespace Sys2Proof.Machine

/-- 00E0 CLS (R161). -/
def execCls (s : State) : Result := advance (s.setFb clearScreen)

/-- 00EE RET: pc <- popped + 2, or StackUnderflow (R162; 90_conflicts.md C1). -/
def execRet (s : State) : Result :=
  match pop s with
  | none => raiseIn .ret .stackUnderflow none s
  | some (a, t) => jumpTo (a.toNat + 2) t

/-- 1NNN JP addr (R163). -/
def execJp (addr : Nat) (s : State) : Result := jumpTo addr s

/-- 2NNN CALL addr: the CALL's own address is pushed, or StackOverflow (R164; 90_conflicts.md C2). -/
def execCall (addr : Nat) (s : State) : Result :=
  match push s.pc s with
  | none => raiseIn (.call addr) .stackOverflow none s
  | some t => jumpTo addr t

/-- 3XNN SE Vx, byte (R165). -/
def execSeImm (x : Reg) (nn : Byte) (s : State) : Result := skipIf (s.getV x == nn) s

/-- 4XNN SNE Vx, byte (R166). -/
def execSneImm (x : Reg) (nn : Byte) (s : State) : Result := skipIf (s.getV x != nn) s

/-- 5XY0 SE Vx, Vy (R167). -/
def execSeReg (x y : Reg) (s : State) : Result := skipIf (s.getV x == s.getV y) s

/-- 9XY0 SNE Vx, Vy (R168). -/
def execSneReg (x y : Reg) (s : State) : Result := skipIf (s.getV x != s.getV y) s

/-- BNNN JP V0, addr: the exact sum, unmasked (R169). -/
def execJpV0 (addr : Nat) (s : State) : Result := jumpTo (addr + (s.getV 0).toNat) s

end Sys2Proof.Machine
end

