-- ==== Sys2Proof/Machine/Draw.lean ====
section
/-! DEFINITION. The draw instruction, 46_draw.md R260 to R264. -/

namespace Sys2Proof.Machine

/-- The pixels DXYN flips: V[X] mod 64 and V[Y] mod 32 are where the sprite starts, read before VF is written (R260). -/
def drawnPixels (p : Config.DrawEdgePolicy) (x y : Reg) (n : Nat) (s : State) : List Pixel :=
  spritePixels p s.mem (indexed s 0) ((s.getV x).toNat % 64) ((s.getV y).toNat % 32) n

/-- Draw n rows: the framebuffer, then VF = collision, written last (R260, R263). -/
def drawSprite (p : Config.DrawEdgePolicy) (x y : Reg) (n : Nat) (s : State) : Result :=
  advance ((s.setFb (blit (drawnPixels p x y n s) (s.fb, false)).1).setFlag
    (blit (drawnPixels p x y n s) (s.fb, false)).2)

/-- DXYN DRW Vx, Vy, nibble under a DRAW_EDGE_POLICY; with N = 0 nothing is checked or drawn and VF <- 0 (R260, R264). -/
def execDrwUnder (p : Config.DrawEdgePolicy) (x y : Reg) (n : Nat) (s : State) : Result :=
  guarded (.drw x y n) (checkRead (indexed s 0) n) (drawSprite p x y n) s

/-- DXYN DRW Vx, Vy, nibble (R260). -/
def execDrw (x y : Reg) (n : Nat) (s : State) : Result := execDrwUnder Config.policy.drawEdge x y n s

end Sys2Proof.Machine
end

