-- ==== Sys2Proof/Machine/IndexMemory.lean ====
section
/-! DEFINITION. The index register and memory-transfer instructions, 43_index_memory.md R190 to R195. I is never
written back (decision D14), and a failed check changes nothing (20_memory.md R59). A meaning that reads a policy
parameter is written for any of its values first (`…Under`). -/

namespace Sys2Proof.Machine

/-- ANNN LD I, addr (R190). -/
def execLdI (addr : Nat) (s : State) : Result := advance (s.setI (BitVec.ofNat 16 addr))

/-- FX1E ADD I, Vx under a FX1E_VF_POLICY: modulo 2^16; VF is written last, if at all (R191). -/
def execAddIUnder (p : Config.Fx1eVfPolicy) (x : Reg) (s : State) : Result :=
  match p with
  | .unchanged => advance (s.setI (BitVec.ofNat 16 (indexSum s.i (s.getV x))))
  | .flagAbove0xFFF =>
    advance ((s.setI (BitVec.ofNat 16 (indexSum s.i (s.getV x)))).setFlag (indexOverflow (indexSum s.i (s.getV x))))

/-- FX1E ADD I, Vx (R191). -/
def execAddI (x : Reg) (s : State) : Result := execAddIUnder Config.policy.fx1eVf x s

/-- FX29 LD F, Vx (R192). -/
def execLdF (x : Reg) (s : State) : Result := advance (s.setI (glyphAddr (s.getV x)))

/-- FX33 LD B, Vx under a FONT_WRITE_POLICY: three digit bytes at I, or the first failing address's fault (R193). -/
def execLdBUnder (p : Config.FontWritePolicy) (x : Reg) (s : State) : Result :=
  guarded (.ldB x) (checkWrite p (indexed s 0) 3)
    (fun s => advance (s.setMem (s.mem.writeBytes (indexed s 0) (bcdDigits (s.getV x))))) s

/-- FX33 LD B, Vx (R193). -/
def execLdB (x : Reg) (s : State) : Result := execLdBUnder Config.policy.fontWrite x s

/-- FX55 LD [I], Vx under a FONT_WRITE_POLICY: V0..VX at I on, or the first failing address's fault (R194). -/
def execSaveRegsUnder (p : Config.FontWritePolicy) (x : Reg) (s : State) : Result :=
  guarded (.saveRegs x) (checkWrite p (indexed s 0) (x.val + 1))
    (fun s => advance (s.setMem (s.mem.writeBytes (indexed s 0) (regsUpTo s.v x)))) s

/-- FX55 LD [I], Vx (R194). -/
def execSaveRegs (x : Reg) (s : State) : Result := execSaveRegsUnder Config.policy.fontWrite x s

/-- FX65 LD Vx, [I]: V0..VX from I on, or the first failing address's fault (R195). -/
def execLoadRegs (x : Reg) (s : State) : Result :=
  guarded (.loadRegs x) (checkRead (indexed s 0) (x.val + 1))
    (fun s => advance (s.setRegs (fillRegs (fun k => s.mem.read (indexed s k)) (x.val + 1) s.v))) s

end Sys2Proof.Machine
end

