-- ==== Sys2Proof/Machine/Input.lean ====
section
/-! DEFINITION. The input instructions, 45_input.md R240 to R243. The keypad is only read. -/

namespace Sys2Proof.Machine

/-- EX9E SKP Vx under a KEY_INDEX_POLICY (R240, R243). -/
def execSkpUnder (p : Config.KeyIndexPolicy) (x : Reg) (s : State) : Result :=
  match keyIndex p (s.getV x) with
  | none => raiseIn (.skp x) .keyIndexOutOfRange none s
  | some k => skipIf s.key[k] s

/-- EX9E SKP Vx (R240). -/
def execSkp (x : Reg) (s : State) : Result := execSkpUnder Config.policy.keyIndex x s

/-- EXA1 SKNP Vx under a KEY_INDEX_POLICY (R241, R243). -/
def execSknpUnder (p : Config.KeyIndexPolicy) (x : Reg) (s : State) : Result :=
  match keyIndex p (s.getV x) with
  | none => raiseIn (.sknp x) .keyIndexOutOfRange none s
  | some k => skipIf (!s.key[k]) s

/-- EXA1 SKNP Vx (R241). -/
def execSknp (x : Reg) (s : State) : Result := execSknpUnder Config.policy.keyIndex x s

/-- FX0A LD Vx, K: waits while no key is pressed; takes the pressed key, a drawn one of several (R242, 40_engine.md
R120; log 6). -/
def execLdVxK (x : Reg) (s : State) : Result :=
  match pressedKeys s.key with
  | [] => waitHere s
  | [k] => advance (s.setV x (BitVec.ofNat 8 k.val))
  | k :: l :: ks => advance (s.countDraw.setV x (BitVec.ofNat 8 (drawnKey s k (l :: ks)).val))

end Sys2Proof.Machine
end

