-- ==== Sys2Proof/Machine/Timers.lean ====
section
/-! DEFINITION. The timer instructions, 44_timers.md R220 to R222. No instruction ticks (40_engine.md R119). -/

namespace Sys2Proof.Machine

/-- FX07 LD Vx, DT (R220). -/
def execLdVxDt (x : Reg) (s : State) : Result := advance (s.setV x s.dt)

/-- FX15 LD DT, Vx (R221). -/
def execLdDtVx (x : Reg) (s : State) : Result := advance (s.setDt (s.getV x))

/-- FX18 LD ST, Vx (R222). -/
def execLdStVx (x : Reg) (s : State) : Result := advance (s.setSt (s.getV x))

end Sys2Proof.Machine
end

