-- ==== Sys2Proof/Machine/Engine.lean ====
section
/-! DEFINITION. The step engine of 40_engine.md R110 to R117: halted, fetch, decode, execute or unknown opcode. It takes
the decoder and the handlers as arguments, so that one text serves every policy (Variants.lean) and `step`. -/

namespace Sys2Proof.Machine

/-- The word at PC, big-endian (20_memory.md R57, R112). -/
def opcodeAtPc (s : State) : Word := opcodeOf (s.mem.read s.pc.toNat) (s.mem.read (s.pc.toNat + 1))

/-- What a fetch answers. -/
inductive Fetched where
  /-- The opcode. -/
  | word (op : Word)
  /-- The first address of the two that does not resolve. -/
  | failed (f : AccessFault)
deriving DecidableEq, Repr

/-- Fetch: both addresses go through the resolver, pc first (R112). -/
def fetch (s : State) : Fetched :=
  match checkRead s.pc.toNat 2 with
  | some f => .failed f
  | none => .word (opcodeAtPc s)

/-- An unknown opcode: DecodeFault under Halt; under Nop, PC + 2 and nothing else (R117). -/
def unknownOpcode (p : Config.UnknownOpcodePolicy) (op : Word) (s : State) : Result :=
  match p with
  | .halt => raiseFault .decodeFault (some op) none s
  | .nop => advance s

/-- One STEP (R110): a halted machine changes nothing (R111); else fetch, decode, execute, in the order of
60_exceptions.md R283. -/
def engineStep (dec : Word → Option Instr) (unknown : Word → State → Result) (handler : Instr → State → Result)
    (s : State) : Result :=
  match s.fault with
  | some _ => .next s
  | none =>
    match fetch s with
    | .failed f => raiseFault f.kind none (some f.addr) s
    | .word op =>
      match dec op with
      | none => unknown op s
      | some i => handler i s

/-- FX0A, the one instruction that can wait (40_engine.md R114, 60_exceptions.md R289). -/
def isKeyWait : Instr → Bool
  | .ldVxK _ => true
  | .cls | .ret | .jp _ | .call _ | .seImm _ _ | .sneImm _ _ | .seReg _ _ | .sneReg _ _ => false
  | .ldImm _ _ | .addImm _ _ | .ldReg _ _ | .orReg _ _ | .andReg _ _ | .xorReg _ _ => false
  | .addReg _ _ | .subReg _ _ | .shr _ _ | .subn _ _ | .shl _ _ | .rnd _ _ => false
  | .ldI _ | .jpV0 _ | .drw _ _ _ | .skp _ | .sknp _ | .ldVxDt _ | .ldDtVx _ | .ldStVx _ => false
  | .addI _ | .ldF _ | .ldB _ | .saveRegs _ | .loadRegs _ => false

/-- What STEP returns to the host (R110). -/
inductive StepReport where
  /-- The instruction completed. -/
  | retired
  /-- Under Nop, an unknown opcode was skipped: its address and the word. -/
  | skipped (pc op : Word)
  /-- FX0A found no key pressed. -/
  | waiting
  /-- This step raised the fault. -/
  | faulted (r : FaultRecord)
  /-- The machine was already faulted. -/
  | halted (r : FaultRecord)
deriving DecidableEq, Repr

/-- The report of a step from s to t (R110, R111, R116, R117). -/
def reportOf (dec : Word → Option Instr) (s t : State) : StepReport :=
  match s.fault, t.fault with
  | some r, _ => .halted r
  | none, some r => .faulted r
  | none, none =>
    match dec (opcodeAtPc s) with
    | none => .skipped s.pc (opcodeAtPc s)
    | some i => if isKeyWait i && (pressedKeys s.key).isEmpty then .waiting else .retired

/-- The state with an opcode where the next step fetches: its two bytes at PC, high byte first, PC moved to 0x200 only
where no opcode fits at PC, and no Fault record, since a halted machine fetches nothing (R111, R112; log 13). -/
def placeOpcode (op : Word) (s : State) : State :=
  let pc : Word := if s.pc.toNat < Config.addrMax then s.pc else BitVec.ofNat 16 Config.programBase
  ((s.setMem (s.mem.writeBytes pc.toNat [highByte op, lowByte op])).setPc pc).setFault none

end Sys2Proof.Machine
end

