-- ==== Sys2Proof/Machine/Step.lean ====
section
/-! DEFINITION. The STEP of this hardware: the engine with this hardware's decoder, unknown-opcode policy and
handlers (40_engine.md R110). -/

namespace Sys2Proof.Machine

/-- One STEP (40_engine.md R110, 60_exceptions.md R291). -/
def step (s : State) : Host.Outcome State Fault Refusal :=
  engineStep decode (unknownOpcode Config.policy.unknownOpcode) exec s

/-- What STEP on s returns to the host when it leads to t (40_engine.md R110). -/
def stepReport (s t : State) : StepReport := reportOf decode s t

/-- s with a table word stored where step fetches its next instruction (log 13). -/
def State.withFetchWord (s : State) (nbits w : Nat) : State := placeOpcode (tableWord nbits w) s

end Sys2Proof.Machine
end

