-- ==== Sys2Proof/Asm.lean ====
section
/-! DEFINITION. The assembly text of an instruction, 30_encoding.md R94: the conventional mnemonics and operand spellings.
They carry no semantics (92_eei_decisions.md D33). Numbers are written `0x` and upper-case digits; log 18. -/

namespace Sys2Proof

/-- One hexadecimal digit. -/
def hexDigit (n : Nat) : String :=
  ["0", "1", "2", "3", "4", "5", "6", "7", "8", "9", "A", "B", "C", "D", "E", "F"].getD (n % 16) ""

/-- Vx: the register's name, V0..VF (10_state.md R21). -/
def asmReg (x : Reg) : String := "V" ++ hexDigit x.val

/-- byte: NN. -/
def asmByte (b : Byte) : String := "0x" ++ hexDigit (b.toNat / 16) ++ hexDigit b.toNat

/-- addr: NNN. -/
def asmAddr (a : Nat) : String := "0x" ++ hexDigit (a / 256) ++ hexDigit (a / 16) ++ hexDigit a

/-- nibble: N. -/
def asmNibble (n : Nat) : String := "0x" ++ hexDigit n

/-- The ignored Vy of SHR and SHL is written unless it is the default, V0 (R94). -/
def asmOptionalReg (y : Reg) : String := if y = 0 then "" else ", " ++ asmReg y

/-- The assembly text of an instruction (R84, R94). -/
def Instr.asm : Instr → String
  | .cls => "CLS"
  | .ret => "RET"
  | .jp addr => "JP " ++ asmAddr addr
  | .call addr => "CALL " ++ asmAddr addr
  | .seImm x nn => "SE " ++ asmReg x ++ ", " ++ asmByte nn
  | .sneImm x nn => "SNE " ++ asmReg x ++ ", " ++ asmByte nn
  | .seReg x y => "SE " ++ asmReg x ++ ", " ++ asmReg y
  | .ldImm x nn => "LD " ++ asmReg x ++ ", " ++ asmByte nn
  | .addImm x nn => "ADD " ++ asmReg x ++ ", " ++ asmByte nn
  | .ldReg x y => "LD " ++ asmReg x ++ ", " ++ asmReg y
  | .orReg x y => "OR " ++ asmReg x ++ ", " ++ asmReg y
  | .andReg x y => "AND " ++ asmReg x ++ ", " ++ asmReg y
  | .xorReg x y => "XOR " ++ asmReg x ++ ", " ++ asmReg y
  | .addReg x y => "ADD " ++ asmReg x ++ ", " ++ asmReg y
  | .subReg x y => "SUB " ++ asmReg x ++ ", " ++ asmReg y
  | .shr x y => "SHR " ++ asmReg x ++ asmOptionalReg y
  | .subn x y => "SUBN " ++ asmReg x ++ ", " ++ asmReg y
  | .shl x y => "SHL " ++ asmReg x ++ asmOptionalReg y
  | .sneReg x y => "SNE " ++ asmReg x ++ ", " ++ asmReg y
  | .ldI addr => "LD I, " ++ asmAddr addr
  | .jpV0 addr => "JP V0, " ++ asmAddr addr
  | .rnd x nn => "RND " ++ asmReg x ++ ", " ++ asmByte nn
  | .drw x y n => "DRW " ++ asmReg x ++ ", " ++ asmReg y ++ ", " ++ asmNibble n
  | .skp x => "SKP " ++ asmReg x
  | .sknp x => "SKNP " ++ asmReg x
  | .ldVxDt x => "LD " ++ asmReg x ++ ", DT"
  | .ldVxK x => "LD " ++ asmReg x ++ ", K"
  | .ldDtVx x => "LD DT, " ++ asmReg x
  | .ldStVx x => "LD ST, " ++ asmReg x
  | .addI x => "ADD I, " ++ asmReg x
  | .ldF x => "LD F, " ++ asmReg x
  | .ldB x => "LD B, " ++ asmReg x
  | .saveRegs x => "LD [I], " ++ asmReg x
  | .loadRegs x => "LD " ++ asmReg x ++ ", [I]"

end Sys2Proof
end

