-- ==== Sys2Proof/Machine/Variants.lean ====
section
/-! DEFINITION. The machine under any values of the policy parameters of 00_scope.md R8: "every rule in this spec is
written for the default and also says what the alternative does". The machine of `exec`, `step` and `State.reset` is this
one at `Config.policy` (Laws/Engine.lean proves it); log 3. -/

namespace Sys2Proof.Machine

/-- The handlers under given policies. -/
def execUnder (p : Config.Policy) (i : Instr) (s : State) : Result :=
  match i with
  | .cls => execCls s
  | .ret => execRet s
  | .jp addr => execJp addr s
  | .call addr => execCall addr s
  | .seImm x nn => execSeImm x nn s
  | .sneImm x nn => execSneImm x nn s
  | .seReg x y => execSeReg x y s
  | .ldImm x nn => execLdImm x nn s
  | .addImm x nn => execAddImm x nn s
  | .ldReg x y => execLdReg x y s
  | .orReg x y => execOrReg x y s
  | .andReg x y => execAndReg x y s
  | .xorReg x y => execXorReg x y s
  | .addReg x y => execAddReg x y s
  | .subReg x y => execSubReg x y s
  | .shr x y => execShr x y s
  | .subn x y => execSubn x y s
  | .shl x y => execShl x y s
  | .sneReg x y => execSneReg x y s
  | .ldI addr => execLdI addr s
  | .jpV0 addr => execJpV0 addr s
  | .rnd x nn => execRnd x nn s
  | .drw x y n => execDrwUnder p.drawEdge x y n s
  | .skp x => execSkpUnder p.keyIndex x s
  | .sknp x => execSknpUnder p.keyIndex x s
  | .ldVxDt x => execLdVxDt x s
  | .ldVxK x => execLdVxK x s
  | .ldDtVx x => execLdDtVx x s
  | .ldStVx x => execLdStVx x s
  | .addI x => execAddIUnder p.fx1eVf x s
  | .ldF x => execLdF x s
  | .ldB x => execLdBUnder p.fontWrite x s
  | .saveRegs x => execSaveRegsUnder p.fontWrite x s
  | .loadRegs x => execLoadRegs x s

/-- One STEP under given policies (40_engine.md R110). -/
def stepUnder (p : Config.Policy) (s : State) : Result :=
  engineStep (decodeUnder p.skip59) (unknownOpcode p.unknownOpcode) (execUnder p) s

/-- The state after reset under given policies: FONT_DATA is the policy's (20_memory.md R53, 10_state.md R37). -/
def resetUnder (p : Config.Policy) : State :=
  State.reset.setMem (Memory.writeBytes [] Config.fontBase p.font.toList)

end Sys2Proof.Machine
end

