-- ==== Sys2Proof/Machine/HostPort.lean ====
section
/-! DEFINITION. The host interface of 60_exceptions.md R290 to R297: the transactions the host invokes one at a time,
always between steps, and what each gives back. -/

namespace Sys2Proof.Machine

/-- A timer one tick later, floored at 0 (44_timers.md R223). -/
def countDown (b : Byte) : Byte := if b.toNat > 0 then b - 1 else b

/-- TICK: DT and ST count down and nothing else changes, running, waiting or halted (44_timers.md R223). -/
def tick (s : State) : State := (s.setDt (countDown s.dt)).setSt (countDown s.st)

/-- SOUND_ON = (ST ≠ 0) (44_timers.md R224, 60_exceptions.md R295). -/
def soundOn (s : State) : Bool := s.st != 0

/-- LOAD: the bytes at 0x200 on; none is ProgramTooLarge, and then nothing is written (60_exceptions.md R296). -/
def loadProgram (program : List Byte) (s : State) : Option State :=
  if Config.programBase + program.length > Config.memSize then none
  else some (s.setMem (s.mem.writeBytes Config.programBase program))

/-- Boot (70_reset_and_hazards.md R322): RESET, then LOAD. -/
def boot (program : List Byte) : Option State := loadProgram program State.reset

/-- The transactions (60_exceptions.md R290). STEP's draws are the free values of Config (00_scope.md R9; log 5, 6). -/
inductive Transaction where
  | step
  | tick
  | setKeys (key : Keypad)
  | readFb
  | soundOn
  | readFault
  | load (program : List Byte)
  | reset
deriving DecidableEq, Repr

/-- What the host gets back (60_exceptions.md R290). -/
inductive Reply where
  /-- TICK, SET_KEYS and RESET give nothing back. -/
  | nothing
  | stepped (r : StepReport)
  | screen (fb : Framebuffer)
  | sound (on : Bool)
  | faultRecord (f : Option FaultRecord)
  | loaded
  /-- ProgramTooLarge, code 16 (60_exceptions.md R280, R296). -/
  | programTooLarge
deriving DecidableEq, Repr

/-- ProgramTooLarge's code (60_exceptions.md R280). -/
def programTooLargeCode : Nat := 16

/-- The machine and the host's protocol: whether a STEP was called since RESET or creation (R296; log 14). -/
structure Session where
  machine : State
  stepped : Bool
deriving DecidableEq, Repr

/-- A machine just created (70_reset_and_hazards.md R320). -/
def Session.fresh : Session := { machine := State.reset, stepped := false }

/-- One transaction, for a given step, decoder and initial state (60_exceptions.md R290 to R297). -/
def transactWith (mstep : State → Result) (dec : Word → Option Instr) (initial : State) (t : Transaction)
    (c : Session) : Host.Outcome (Session × Reply) Fault Refusal :=
  match t with
  | .step =>
    match mstep c.machine with
    | .next m => .next ({ machine := m, stepped := true }, .stepped (reportOf dec c.machine m))
    | .fault f => .fault f
    | .refused r => .refused r
  | .tick => .next ({ c with machine := Sys2Proof.Machine.tick c.machine }, .nothing)
  | .setKeys key => .next ({ c with machine := c.machine.setKeys key }, .nothing)
  | .readFb => .next (c, .screen c.machine.fb)
  | .soundOn => .next (c, .sound (Sys2Proof.Machine.soundOn c.machine))
  | .readFault => .next (c, .faultRecord c.machine.fault)
  | .load program =>
    if c.stepped then .refused .loadNotAdmitted
    else match loadProgram program c.machine with
      | some m => .next ({ c with machine := m }, .loaded)
      | none => .next (c, .programTooLarge)
  | .reset => .next ({ machine := resetTo initial c.machine, stepped := false }, .nothing)

/-- One transaction of this hardware. -/
def transact (t : Transaction) (c : Session) : Host.Outcome (Session × Reply) Fault Refusal :=
  transactWith step decode State.reset t c

/-- One transaction under given policies. -/
def transactUnder (p : Config.Policy) (t : Transaction) (c : Session) :
    Host.Outcome (Session × Reply) Fault Refusal :=
  transactWith (stepUnder p) (decodeUnder p.skip59) (resetUnder p) t c

/-- The host's transactions one after another, stopping at the first refusal. -/
def transactAll : List Transaction → Session → Host.Outcome Session Fault Refusal
  | [], c => .next c
  | t :: ts, c =>
    match transact t c with
    | .next (c', _) => transactAll ts c'
    | .fault f => .fault f
    | .refused r => .refused r

end Sys2Proof.Machine
end

