-- ==== Sys2Proof/Safety.lean ====
section
/-! DEFINITION. The terms claims are stated in: the cells of the state and what a frame is, the invariant of every run,
and the ends of a run that 70_reset_and_hazards.md R328 names. -/

namespace Sys2Proof.Machine

/-! ## Frames -/

/-- The cells of the state (10_state.md R20), without PC, of which a frame need not speak, and the model's own draw
counter. -/
inductive Cell where
  | mem (a : Nat)
  | v (r : Reg)
  | i
  | stack (k : Fin 16)
  | sp
  | dt
  | st
  | pixel (q : Pixel)
  | key (k : Fin 16)
  | fault
  | draws
deriving DecidableEq, Repr

/-- A cell reads the same in both states. -/
def Cell.same (s t : State) : Cell → Prop
  | .mem a => t.mem.read a = s.mem.read a
  | .v r => t.v[r] = s.v[r]
  | .i => t.i = s.i
  | .stack k => t.stack[k] = s.stack[k]
  | .sp => t.sp = s.sp
  | .dt => t.dt = s.dt
  | .st => t.st = s.st
  | .pixel q => pixelAt t.fb q = pixelAt s.fb q
  | .key k => t.key[k] = s.key[k]
  | .fault => t.fault = s.fault
  | .draws => t.draws = s.draws

/-- The frame from s to t: every cell outside `may` reads as before. -/
def Frame (may : Cell → Prop) (s t : State) : Prop := ∀ c, ¬ may c → c.same s t

/-- The cells of one address range, `n` bytes from `a` on. -/
def bytesFrom (a n : Nat) : Cell → Prop
  | .mem b => a ≤ b ∧ b < a + n
  | .v _ | .i | .stack _ | .sp | .dt | .st | .pixel _ | .key _ | .fault | .draws => False

/-- No cell. -/
def noCell : Cell → Prop := fun _ => False

/-- An instruction completes with PC moved on by 2 and only some cells changed (40_engine.md R115). -/
def CompletesWithin (may : Cell → Prop) (i : Instr) (s : State) (post : State → Prop) : Prop :=
  ∃ t, exec i s = .next t ∧ t.pc = s.pc + 2 ∧ Frame may s t ∧ post t

/-- An instruction completes by setting PC to an exact target (40_engine.md R115), only some cells changed. -/
def CompletesAt (target : Nat) (may : Cell → Prop) (i : Instr) (s : State) (post : State → Prop) : Prop :=
  ∃ t, exec i s = .next t ∧ t.pc.toNat = target ∧ Frame may s t ∧ post t

/-- The row of 30_encoding.md R84 an instruction's word lies in, and that the word decodes to it. -/
def EncodedIn (pattern mask : Word) (i : Instr) : Prop :=
  encode i &&& mask = pattern ∧ decode (encode i) = some i

/-- The same state with a Fault record. -/
def withRecord (kind : FaultKind) (opcode : Option Word) (addr : Option Nat) (s : State) : State :=
  { s with fault := some { kind := kind, pc := s.pc, opcode := opcode, addr := addr } }

/-- An instruction faults: the record is written, and the next state is s in everything else (40_engine.md R116;
log 1). The recorded word is the instruction's (log 8). -/
def FaultsWith (kind : FaultKind) (addr : Option Nat) (i : Instr) (s : State) : Prop :=
  exec i s = .next (withRecord kind (some (encode i)) addr s)

/-- A PC past 0xFFE faults at the next fetch, at the first address past 0xFFF (40_engine.md R112). -/
def FaultsAtNextFetch (t : State) : Prop :=
  t.fault = none → 0xFFE < t.pc.toNat →
    step t = .next (withRecord .outOfBounds none (some (max t.pc.toNat 0x1000)) t)

/-- The pixels a sprite of n rows has set bits for: bit b of row r, counted from the left, falls on column
V[X] mod 64 + b and row V[Y] mod 32 + r, wrapped or clipped at the edges (46_draw.md R260, R261, R262). -/
def SpriteSets (edge : Config.DrawEdgePolicy) (x y : Reg) (n : Nat) (s : State) (q : Pixel) : Prop :=
  ∃ r b, r < n ∧ b < 8 ∧ (s.mem.read (s.i.toNat + r)).getLsbD (7 - b) = true ∧
    match edge with
    | .wrap => q.1.val = (s.v[x].toNat % 64 + b) % 64 ∧ q.2.val = (s.v[y].toNat % 32 + r) % 32
    | .clip => q.1.val = s.v[x].toNat % 64 + b ∧ q.2.val = s.v[y].toNat % 32 + r

/-! ## What an instruction does not touch -/

/-- The answer with its next state changed by f. -/
def mapNext (f : State → State) : Result → Result
  | .next t => .next (f t)
  | .fault e => .fault e
  | .refused r => .refused r

/-- An instruction neither reads nor writes what f overwrites: f before it or after it makes no difference. -/
def Untouched (f : State → State) (i : Instr) : Prop := ∀ s, exec i (f s) = mapNext f (exec i s)

/-- An instruction does not read what f overwrites, though it may write it. -/
def Unread (f : State → State) (i : Instr) : Prop := ∀ s, exec i (f s) = exec i s

/-! ## The invariant of every run -/

/-- What holds of a Fault record: the kind says whether a word and an address stand in it (60_exceptions.md R280, R281). -/
def FaultRecord.ok (r : FaultRecord) : Prop :=
  match r.kind with
  | .decodeFault | .stackOverflow | .stackUnderflow | .keyIndexOutOfRange => r.opcode.isSome ∧ r.addr = none
  | .outOfBounds => ∃ a, r.addr = some a ∧ 0xFFF < a
  | .fontWrite => r.opcode.isSome ∧ ∃ a, r.addr = some a ∧ a ≤ 0x04F

/-- Every state a run reaches, whatever the host does through its interface. -/
structure Inv (s : State) : Prop where
  /-- Memory is in its canonical form, so its bytes lie at 0x000..0xFFF (20_memory.md R50). -/
  memory : s.mem.wf = true
  /-- The font region is never overwritten by program logic (20_memory.md R51, R55). -/
  font : ∀ a, (h : a < 80) → s.mem.read a = Config.fontData[a]
  /-- No value written to PC passes 0x10FE (10_state.md R27). -/
  pc : s.pc.toNat ≤ 0x10FE
  /-- Only fetched addresses are pushed (10_state.md R27, R29). -/
  stack : ∀ k : Fin 16, s.stack[k].toNat ≤ 0xFFE
  /-- The record is of the faulting instruction, which PC still addresses (60_exceptions.md R281, R282). -/
  record : ∀ r, s.fault = some r → r.pc = s.pc ∧ r.ok

/-! ## Ends of a run (70_reset_and_hazards.md R328) -/

/-- Halted: the Fault record is set. -/
def Halted (s : State) : Prop := s.fault ≠ none

/-- The next step fetches and decodes this instruction. -/
def NextIs (i : Instr) (s : State) : Prop :=
  s.fault = none ∧ s.pc.toNat + 1 ≤ 0xFFF ∧
    decode (BitVec.ofNat 16 ((s.mem.read s.pc.toNat).toNat * 256 + (s.mem.read (s.pc.toNat + 1)).toNat)) = some i

/-- Parked: the word at PC is the jump to PC itself. -/
def Parked (s : State) : Prop := NextIs (.jp s.pc.toNat) s

/-- Waiting: PC is at an FX0A and no key is pressed. -/
def Waiting (s : State) : Prop := (∃ x, NextIs (.ldVxK x) s) ∧ ∀ k : Fin 16, s.key[k] = false

end Sys2Proof.Machine
end

