-- ==== Sys2Proof/Certificates/Slice0/Obligations.lean ====
section
/-! DEFINITION. The statements for the provers, in the terms of Safety.lean. Each docstring names the rule or the
section of spec/ it formalises; where a clause rests on a decision the spec marks as its own, it names the decision. A fault of
the spec is a next state with the Fault record written (log 1), in every statement here that speaks of one. -/

open Sys2Proof Sys2Proof.Machine

/-! ## Reset and the invariant -/

/-- The table of 10_state.md section 10: every cell after reset. The glyph bytes are the spec's decision D16 (log 4), the
Fault record its decision D8. -/
def Obligations.ResetStateValues : Prop :=
  (∀ a, (h : a < 80) → State.reset.mem.read a = Config.fontData[a]) ∧
  (∀ a, 80 ≤ a → State.reset.mem.read a = 0) ∧
  (∀ r : Reg, State.reset.v[r] = 0) ∧ State.reset.i = 0 ∧ State.reset.pc = 0x200 ∧
  (∀ k : Fin 16, State.reset.stack[k] = 0) ∧ State.reset.sp = 0 ∧ State.reset.dt = 0 ∧ State.reset.st = 0 ∧
  (∀ q : Pixel, pixelAt State.reset.fb q = false) ∧ (∀ k : Fin 16, State.reset.key[k] = false) ∧
  State.reset.fault = none

/-- The invariant holds at reset. -/
def Obligations.ResetSatisfiesInvariant : Prop := Inv State.reset

/-- Every step keeps the invariant: canonical memory, the font region as preloaded (20_memory.md section 1), PC at most
0x10FE and stack cells at most 0xFFE (10_state.md section 5), the record of the faulting instruction (60_exceptions.md
section 1). -/
def Obligations.StepKeepsInvariant : Prop :=
  ∀ s t : State, Inv s → step s = .next t → Inv t

/-- Every transaction of the host interface keeps the invariant (60_exceptions.md section 5). -/
def Obligations.TransactionsKeepInvariant : Prop :=
  ∀ (x : Transaction) (c c' : Session) (r : Reply), Inv c.machine → transact x c = .next (c', r) → Inv c'.machine

/-! ## Encoding -/

/-- The decode samples of 95_test_vectors.md section 2.7, as words. -/
def Obligations.DecodeSampleWords : Prop :=
  decode 0x00E0 = some .cls ∧ decode 0x00EE = some .ret ∧ decode 0x00E1 = none ∧
  decode 0x8AB4 = some (.addReg 0xA 0xB) ∧ decode 0x8AB8 = none ∧ decode 0x8ABE = some (.shl 0xA 0xB) ∧
  decode 0x5AB3 = some (.seReg 0xA 0xB) ∧ decodeUnder .fault 0x5AB3 = none ∧
  decode 0x9AB0 = some (.sneReg 0xA 0xB) ∧ decode 0xE19E = some (.skp 1) ∧ decode 0xE1A2 = none ∧
  decode 0xF10A = some (.ldVxK 1) ∧ decode 0xF11E = some (.addI 1) ∧ decode 0xF165 = some (.loadRegs 1) ∧
  decode 0xF166 = none

/-- Encoding is the inverse of the opcode map (30_encoding.md section 6): every well-formed instruction's word decodes to
it, under both values of SKIP59_LOW_NIBBLE. -/
def Obligations.DecodeInvertsEncode : Prop :=
  ∀ (i : Instr) (p : Config.Skip59LowNibble), i.wf = true → decodeUnder p (encode i) = some i

/-- What is decoded is well formed and encodes to the word it came from, but for the ignored low nibble of 5XYN and 9XYN,
which is emitted as 0 (30_encoding.md sections 3 and 6). -/
def Obligations.EncodeInvertsDecode : Prop :=
  ∀ (w : Word) (i : Instr), decode w = some i →
    i.wf = true ∧
    (encode i = w ∨ ((w.toNat / 4096 = 5 ∨ w.toNat / 4096 = 9) ∧ (encode i).toNat = w.toNat - w.toNat % 16))

/-- The opcode map of 30_encoding.md section 3: at most one of the 34 rows matches a word, a word is unknown exactly when
no row matches, and a decoded instruction's row is the one that matches. -/
def Obligations.DecodeFollowsOpcodeMap : Prop :=
  ∀ (p : Config.Skip59LowNibble),
    (opcodeRows p).length = 34 ∧
    ∀ w : Word,
      (∀ r r' : OpcodeRow, r ∈ opcodeRows p → r' ∈ opcodeRows p → rowMatches r w = true → rowMatches r' w = true →
        r = r') ∧
      (decodeUnder p w = none ↔ ∀ r ∈ opcodeRows p, rowMatches r w = false) ∧
      (∀ i, decodeUnder p w = some i → rowOf p i ∈ opcodeRows p ∧ rowMatches (rowOf p i) w = true)

/-- The secondary decodes of families 8, E and F (30_encoding.md R87, R88, R89): which sub-opcodes are instructions, which
instruction each is, and that every other word of the family is unknown. -/
def Obligations.SecondaryDecodeOfFamilies8EF : Prop :=
  (∀ (x y : Reg),
    decode (encXYN 0x8 x y 0x0) = some (.ldReg x y) ∧ decode (encXYN 0x8 x y 0x1) = some (.orReg x y) ∧
    decode (encXYN 0x8 x y 0x2) = some (.andReg x y) ∧ decode (encXYN 0x8 x y 0x3) = some (.xorReg x y) ∧
    decode (encXYN 0x8 x y 0x4) = some (.addReg x y) ∧ decode (encXYN 0x8 x y 0x5) = some (.subReg x y) ∧
    decode (encXYN 0x8 x y 0x6) = some (.shr x y) ∧ decode (encXYN 0x8 x y 0x7) = some (.subn x y) ∧
    decode (encXYN 0x8 x y 0xE) = some (.shl x y) ∧
    ∀ n ∈ [0x8, 0x9, 0xA, 0xB, 0xC, 0xD, 0xF], decode (encXYN 0x8 x y n) = none) ∧
  (∀ (x : Reg) (nn : Byte),
    decode (encXNN 0xE x nn.toNat) =
      if nn = 0x9E then some (.skp x) else if nn = 0xA1 then some (.sknp x) else none) ∧
  (∀ (x : Reg),
    decode (encXNN 0xF x 0x07) = some (.ldVxDt x) ∧ decode (encXNN 0xF x 0x0A) = some (.ldVxK x) ∧
    decode (encXNN 0xF x 0x15) = some (.ldDtVx x) ∧ decode (encXNN 0xF x 0x18) = some (.ldStVx x) ∧
    decode (encXNN 0xF x 0x1E) = some (.addI x) ∧ decode (encXNN 0xF x 0x29) = some (.ldF x) ∧
    decode (encXNN 0xF x 0x33) = some (.ldB x) ∧ decode (encXNN 0xF x 0x55) = some (.saveRegs x) ∧
    decode (encXNN 0xF x 0x65) = some (.loadRegs x)) ∧
  (∀ (x : Reg) (nn : Byte), nn ∉ ([0x07, 0x0A, 0x15, 0x18, 0x1E, 0x29, 0x33, 0x55, 0x65] : List Byte) →
    decode (encXNN 0xF x nn.toNat) = none)

/-- Family 0 (decision D10): only 0x00E0 and 0x00EE are instructions. The low nibble of 5XYN and 9XYN (decision D11) is
ignored under Ignore and must be 0 under Fault. -/
def Obligations.FamilyZeroAndSkipNibble : Prop :=
  (∀ (p : Config.Skip59LowNibble) (w : Word), w.toNat < 0x1000 →
    decodeUnder p w = if w = 0x00E0 then some .cls else if w = 0x00EE then some .ret else none) ∧
  (∀ (x y : Reg) (n : Nat), n ≤ 0xF →
    decodeUnder .ignore (encXYN 0x5 x y n) = some (.seReg x y) ∧
    decodeUnder .ignore (encXYN 0x9 x y n) = some (.sneReg x y) ∧
    decodeUnder .fault (encXYN 0x5 x y n) = (if n = 0 then some (.seReg x y) else none) ∧
    decodeUnder .fault (encXYN 0x9 x y n) = (if n = 0 then some (.sneReg x y) else none))

/-! ## The step engine -/

/-- A step of a running machine whose two bytes at PC, the first the most significant, decode to an instruction is exec of
it at that very state: the step adds nothing around exec (40_engine.md sections on fetch, decode and execute). PC may be
odd. -/
def Obligations.StepRunsDecodedInstruction : Prop :=
  ∀ (s : State) (i : Instr), NextIs i s → step s = exec i s

/-- A halted machine's step changes nothing and returns Halted with the record (decision D8). -/
def Obligations.HaltedStepChangesNothing : Prop :=
  ∀ (s : State) (r : FaultRecord), s.fault = some r → step s = .next s ∧ stepReport s s = .halted r

/-- A fetch past 0xFFF raises OutOfBounds with the first failing address and no opcode (decisions D7, D30). -/
def Obligations.FetchPastTheEndFaults : Prop :=
  ∀ s : State, s.fault = none →
    (0xFFF < s.pc.toNat → step s = .next (withRecord .outOfBounds none (some s.pc.toNat) s)) ∧
    (s.pc.toNat = 0xFFF → step s = .next (withRecord .outOfBounds none (some 0x1000) s))

/-- An unknown opcode raises DecodeFault under Halt, and under Nop advances PC by 2 and is reported as skipped, with no
other change (decisions D1, D29). -/
def Obligations.UnknownOpcodeFollowsPolicy : Prop :=
  ∀ (p : Config.Policy) (s : State), s.fault = none → s.pc.toNat < 0xFFF →
    decodeUnder p.skip59 (opcodeAtPc s) = none →
    (p.unknownOpcode = .halt →
      stepUnder p s = .next (withRecord .decodeFault (some (opcodeAtPc s)) none s)) ∧
    (p.unknownOpcode = .nop →
      ∃ t, stepUnder p s = .next t ∧ t.pc = s.pc + 2 ∧ Frame noCell s t ∧
        reportOf (decodeUnder p.skip59) s t = .skipped s.pc (opcodeAtPc s))

/-- Faults are precise (decisions D8, D25; log 1): a step that raises a fault changes the Fault record and nothing else; the record
holds the address of the faulting instruction, and its word unless the fetch itself failed. Under every policy. -/
def Obligations.FaultedStepChangesOnlyTheRecord : Prop :=
  ∀ (p : Config.Policy) (s t : State) (r : FaultRecord),
    s.fault = none → stepUnder p s = .next t → t.fault = some r →
      t = { s with fault := some r } ∧ r.pc = s.pc ∧
      r.opcode = if s.pc.toNat + 1 ≤ 0xFFF then some (opcodeAtPc s) else none

/-- Every fault has the cause the table of 60_exceptions.md section 1 gives it (decision D9 for the codes, D12 and D15 for
the last two kinds). -/
def Obligations.FaultKindsHaveTheirCauses : Prop :=
  ∀ (s t : State) (r : FaultRecord), s.fault = none → step s = .next t → t.fault = some r →
    match r.kind with
    | .decodeFault => s.pc.toNat < 0xFFF ∧ decode (opcodeAtPc s) = none ∧ r.addr = none
    | .stackOverflow => (∃ a, NextIs (.call a) s) ∧ s.sp = 16 ∧ r.addr = none
    | .stackUnderflow => NextIs .ret s ∧ s.sp = 0 ∧ r.addr = none
    | .keyIndexOutOfRange =>
      (∃ x, (NextIs (.skp x) s ∨ NextIs (.sknp x) s) ∧ 0xF < s.v[x].toNat) ∧ r.addr = none
    | .fontWrite =>
      (∃ x, NextIs (.ldB x) s ∨ NextIs (.saveRegs x) s) ∧ s.i.toNat ≤ 0x04F ∧ r.addr = some s.i.toNat
    | .outOfBounds =>
      (0xFFF ≤ s.pc.toNat ∧ r.opcode = none ∧ r.addr = some (max s.pc.toNat 0x1000)) ∨
      (r.addr = some (max s.i.toNat 0x1000) ∧
        ((∃ x y n, NextIs (.drw x y n) s ∧ 0 < n ∧ 0x1000 < s.i.toNat + n) ∨
         (∃ x, NextIs (.ldB x) s ∧ 0x1000 < s.i.toNat + 3) ∨
         (∃ x : Reg, (NextIs (.saveRegs x) s ∨ NextIs (.loadRegs x) s) ∧ 0x1000 < s.i.toNat + x.val + 1)))

/-- Every step answers a next state, under every policy: no instruction is refused and no fault stops the model. That a
step which faults (40_engine.md R116, 60_exceptions.md R284, decision D8) answers a next state, the record written, is the
model's reading (log 1): the interface's outcome fault is never used. -/
def Obligations.EveryStepReachesANextState : Prop :=
  ∀ (p : Config.Policy) (s : State), ∃ t, stepUnder p s = .next t

/-- What each report of a step means (40_engine.md section on the step contract): Halted and Waiting leave the state as it
is, Faulted wrote the record, Retired left a running machine running, and Skipped is not reported under the default
policy. -/
def Obligations.StepReportsMeanWhatTheySay : Prop :=
  ∀ s t : State, step s = .next t →
    match stepReport s t with
    | .halted r => s.fault = some r ∧ t = s
    | .faulted r => s.fault = none ∧ t = { s with fault := some r }
    | .waiting => Waiting s ∧ t = s
    | .skipped _ _ => False
    | .retired => (∃ i, NextIs i s) ∧ t.fault = none ∧ ¬ Waiting s

/-! ## Whole-machine rules -/

/-- The step never ticks (40_engine.md R119): a step changes DT or ST only where its instruction is FX15 or FX18, to V[X]. -/
def Obligations.StepNeverTicks : Prop :=
  ∀ s t : State, step s = .next t →
    (t.dt = s.dt ∨ ∃ x : Reg, NextIs (.ldDtVx x) s ∧ t.dt = s.v[x]) ∧
    (t.st = s.st ∨ ∃ x : Reg, NextIs (.ldStVx x) s ∧ t.st = s.v[x])

/-- The timers (10_state.md R30): DT is read by FX07 and written by FX15, ST is written by FX18 and read by no
instruction; no other instruction reads or writes either. A tick takes each down by one, floored at 0, apart from the
other. -/
def Obligations.TimersAreTouchedOnlyByTheirInstructions : Prop :=
  (∀ (b : Byte) (i : Instr), (∀ x, i ≠ .ldVxDt x) → (∀ x, i ≠ .ldDtVx x) → Untouched (·.setDt b) i) ∧
  (∀ (b : Byte) (x : Reg), Unread (·.setDt b) (.ldDtVx x)) ∧
  (∀ (b : Byte) (i : Instr), (∀ x, i ≠ .ldStVx x) → Untouched (·.setSt b) i) ∧
  (∀ (b : Byte) (x : Reg), Unread (·.setSt b) (.ldStVx x)) ∧
  (∀ (s : State) (x : Reg), ∃ t, exec (.ldVxDt x) s = .next t ∧ t.v[x] = s.dt ∧ t.dt = s.dt) ∧
  (∀ (s : State) (x : Reg), ∃ t, exec (.ldDtVx x) s = .next t ∧ t.dt = s.v[x]) ∧
  (∀ (s : State) (x : Reg), ∃ t, exec (.ldStVx x) s = .next t ∧ t.st = s.v[x]) ∧
  (∀ s : State, (tick s).dt.toNat = s.dt.toNat - 1 ∧ (tick s).st.toNat = s.st.toNat - 1) ∧
  (∀ s : State, soundOn s = true ↔ s.st ≠ 0)

/-- The stack (10_state.md R28): no instruction reads or writes the stack or SP except 2NNN and 00EE. -/
def Obligations.OnlyCallAndReturnTouchTheStack : Prop :=
  ∀ (k : Vector Word 16) (n : Fin 17) (i : Instr), (∀ a, i ≠ .call a) → i ≠ .ret → Untouched (·.setStack k n) i

/-- The keypad (10_state.md R32): no step writes it, and only EX9E, EXA1 and FX0A read it. -/
def Obligations.KeypadIsReadOnlyToPrograms : Prop :=
  (∀ s t : State, step s = .next t → t.key = s.key) ∧
  (∀ (key : Keypad) (i : Instr), (∀ x, i ≠ .skp x) → (∀ x, i ≠ .sknp x) → (∀ x, i ≠ .ldVxK x) →
    Untouched (·.setKeys key) i)

/-- The framebuffer, I and memory are reached only by the instructions that name them: FB by 00E0 and DXYN, I by ANNN, FX1E,
FX29 and the memory instructions, memory by DXYN, FX33, FX55 and FX65 (10_state.md sections 4 and 8, 20_memory.md
section 4); of the memory instructions none writes I. -/
def Obligations.CellsAreTouchedOnlyByTheirInstructions : Prop :=
  (∀ (fb : Framebuffer) (i : Instr), i ≠ .cls → (∀ x y n, i ≠ .drw x y n) → Untouched (·.setFb fb) i) ∧
  (∀ (w : Word) (i : Instr), (∀ a, i ≠ .ldI a) → (∀ x, i ≠ .addI x) → (∀ x, i ≠ .ldF x) →
    (∀ x y n, i ≠ .drw x y n) → (∀ x, i ≠ .ldB x) → (∀ x, i ≠ .saveRegs x) → (∀ x, i ≠ .loadRegs x) →
    Untouched (·.setI w) i) ∧
  (∀ (m : Memory) (i : Instr), (∀ x y n, i ≠ .drw x y n) → (∀ x, i ≠ .ldB x) → (∀ x, i ≠ .saveRegs x) →
    (∀ x, i ≠ .loadRegs x) → Untouched (·.setMem m) i) ∧
  (∀ (s t : State) (i : Instr), (∀ a, i ≠ .ldI a) → (∀ x, i ≠ .addI x) → (∀ x, i ≠ .ldF x) →
    exec i s = .next t → t.i = s.i)

/-- The flag register (10_state.md section 3): under the default policies an instruction that changes VF is one of the six
flag instructions, or names VF as its destination, or is FX65 with X = F. -/
def Obligations.FlagRegisterChangesOnlyWhereDocumented : Prop :=
  ∀ (s t : State) (i : Instr), exec i s = .next t → t.v[(15 : Reg)] ≠ s.v[(15 : Reg)] →
    (∃ x y, i = .addReg x y ∨ i = .subReg x y ∨ i = .subn x y ∨ i = .shr x y ∨ i = .shl x y) ∨
    (∃ x y n, i = .drw x y n) ∨
    (∃ nn, i = .ldImm 15 nn ∨ i = .addImm 15 nn ∨ i = .rnd 15 nn) ∨
    (∃ y, i = .ldReg 15 y ∨ i = .orReg 15 y ∨ i = .andReg 15 y ∨ i = .xorReg 15 y) ∨
    i = .ldVxDt 15 ∨ i = .ldVxK 15 ∨ i = .loadRegs 15

/-- Memory (20_memory.md section 4): a step changes a byte only through FX33 or FX55, within I..I+2 or I..I+X, and never
below 0x050 (decision D15) nor above 0xFFF. -/
def Obligations.MemoryChangesOnlyByStores : Prop :=
  ∀ (s t : State) (a : Nat), step s = .next t → t.mem.read a ≠ s.mem.read a →
    0x04F < a ∧ a ≤ 0xFFF ∧
    ((∃ x, NextIs (.ldB x) s ∧ s.i.toNat ≤ a ∧ a ≤ s.i.toNat + 2) ∨
     (∃ x : Reg, NextIs (.saveRegs x) s ∧ s.i.toNat ≤ a ∧ a ≤ s.i.toNat + x.val))

/-- Popped cells are never seen (10_state.md section 6, decision D6): two states that differ only in stack cells at or above
SP take steps to states that differ only in stack cells at or above SP. -/
def Obligations.PoppedStackCellsAreNeverSeen : Prop :=
  ∀ (s t : State) (k : Vector Word 16), (∀ j : Fin 16, j.val < s.sp.val → k[j] = s.stack[j]) → step s = .next t →
    ∃ k', step (s.setStack k s.sp) = .next (t.setStack k' t.sp) ∧
      ∀ j : Fin 16, j.val < t.sp.val → k'[j] = t.stack[j]

/-- Draws (40_engine.md R120, counted by the model's own field, log 7): a step takes one draw or none, and one only where its
instruction is CXNN, or FX0A with two or more keys pressed. -/
def Obligations.DrawsAreTakenOnlyWhereTheRulesSay : Prop :=
  ∀ s t : State, step s = .next t →
    t.draws = s.draws ∨
    (t.draws = s.draws + 1 ∧
      ((∃ x nn, NextIs (.rnd x nn) s) ∨
       (∃ x, NextIs (.ldVxK x) s) ∧ ∃ j k : Fin 16, j ≠ k ∧ s.key[j] = true ∧ s.key[k] = true))

/-! ## Register and ALU instructions (41_register_alu.md) -/

/-- 6XNN, 7XNN, 8XY0 to 8XY3 (R130 to R135): V[X] becomes the operand, the sum modulo 256, the copy or the bitwise result;
no flag effect; nothing else changes. -/
def Obligations.PlainRegisterInstructionsWriteOneRegister : Prop :=
  ∀ (s : State) (x y : Reg) (nn : Byte),
    (EncodedIn 0x6000 0xF000 (.ldImm x nn) ∧
      CompletesWithin (· = .v x) (.ldImm x nn) s (fun t => t.v[x] = nn)) ∧
    (EncodedIn 0x7000 0xF000 (.addImm x nn) ∧
      CompletesWithin (· = .v x) (.addImm x nn) s (fun t => t.v[x].toNat = (s.v[x].toNat + nn.toNat) % 256)) ∧
    (EncodedIn 0x8000 0xF00F (.ldReg x y) ∧
      CompletesWithin (· = .v x) (.ldReg x y) s (fun t => t.v[x] = s.v[y])) ∧
    (EncodedIn 0x8001 0xF00F (.orReg x y) ∧
      CompletesWithin (· = .v x) (.orReg x y) s (fun t => t.v[x] = s.v[x] ||| s.v[y])) ∧
    (EncodedIn 0x8002 0xF00F (.andReg x y) ∧
      CompletesWithin (· = .v x) (.andReg x y) s (fun t => t.v[x] = s.v[x] &&& s.v[y])) ∧
    (EncodedIn 0x8003 0xF00F (.xorReg x y) ∧
      CompletesWithin (· = .v x) (.xorReg x y) s (fun t => t.v[x] = s.v[x] ^^^ s.v[y]))

/-- 8XY4, 8XY5 and 8XY7 (R136, R137, R139): V[X] becomes the sum or difference modulo 256 unless X = F; VF becomes the carry,
or 1 exactly when nothing was borrowed, also when X = F. -/
def Obligations.SumsAndDifferencesSetFlag : Prop :=
  ∀ (s : State) (x y : Reg),
    (EncodedIn 0x8004 0xF00F (.addReg x y) ∧
      CompletesWithin (fun c => c = .v x ∨ c = .v 15) (.addReg x y) s (fun t =>
        (x ≠ 15 → t.v[x].toNat = (s.v[x].toNat + s.v[y].toNat) % 256) ∧
        t.v[(15 : Reg)].toNat = if s.v[x].toNat + s.v[y].toNat > 255 then 1 else 0)) ∧
    (EncodedIn 0x8005 0xF00F (.subReg x y) ∧
      CompletesWithin (fun c => c = .v x ∨ c = .v 15) (.subReg x y) s (fun t =>
        (x ≠ 15 → (t.v[x].toNat : Int) = ((s.v[x].toNat : Int) - s.v[y].toNat) % 256) ∧
        t.v[(15 : Reg)].toNat = if s.v[x].toNat ≥ s.v[y].toNat then 1 else 0)) ∧
    (EncodedIn 0x8007 0xF00F (.subn x y) ∧
      CompletesWithin (fun c => c = .v x ∨ c = .v 15) (.subn x y) s (fun t =>
        (x ≠ 15 → (t.v[x].toNat : Int) = ((s.v[y].toNat : Int) - s.v[x].toNat) % 256) ∧
        t.v[(15 : Reg)].toNat = if s.v[y].toNat ≥ s.v[x].toNat then 1 else 0))

/-- 8XY6 and 8XYE (R138, R140): V[X] is shifted by one bit unless X = F, VF is the bit shifted out as 0 or 1, also when
X = F; Y is ignored. -/
def Obligations.ShiftsIgnoreYAndSetFlag : Prop :=
  ∀ (s : State) (x y : Reg),
    (EncodedIn 0x8006 0xF00F (.shr x y) ∧ (∀ z, exec (.shr x z) s = exec (.shr x y) s) ∧
      CompletesWithin (fun c => c = .v x ∨ c = .v 15) (.shr x y) s (fun t =>
        (x ≠ 15 → t.v[x].toNat = s.v[x].toNat / 2) ∧ t.v[(15 : Reg)].toNat = s.v[x].toNat % 2)) ∧
    (EncodedIn 0x800E 0xF00F (.shl x y) ∧ (∀ z, exec (.shl x z) s = exec (.shl x y) s) ∧
      CompletesWithin (fun c => c = .v x ∨ c = .v 15) (.shl x y) s (fun t =>
        (x ≠ 15 → t.v[x].toNat = s.v[x].toNat * 2 % 256) ∧ t.v[(15 : Reg)].toNat = s.v[x].toNat / 128))

/-- CXNN (decision D18, the spec's general knowledge; log 5): V[X] becomes the drawn byte AND NN, whatever byte is drawn;
NN = 0 gives 0 and NN = 0xFF the byte itself. -/
def Obligations.RandomByteIsMasked : Prop :=
  ∀ (s : State) (x : Reg) (nn : Byte),
    EncodedIn 0xC000 0xF000 (.rnd x nn) ∧
    CompletesWithin (fun c => c = .v x ∨ c = .draws) (.rnd x nn) s (fun t =>
      t.v[x] = Config.freeByte s.draws &&& nn ∧ t.draws = s.draws + 1 ∧
      (nn = 0 → t.v[x] = 0) ∧ (nn = 0xFF → t.v[x] = Config.freeByte s.draws))

/-! ## Control flow (42_control_flow.md) -/

/-- 00E0 (R161): every pixel becomes 0; VF and the rest are as before. -/
def Obligations.ClearScreenZeroesEveryPixel : Prop :=
  ∀ s : State, encode .cls = 0x00E0 ∧ EncodedIn 0x00E0 0xFFFF .cls ∧
    CompletesWithin (fun c => ∃ q, c = .pixel q) .cls s (fun t => ∀ q, pixelAt t.fb q = false)

/-- 1NNN (42_control_flow.md, R163): PC becomes NNN with nothing added; nothing else changes; a target of 0xFFF faults at the
next fetch, and a jump to itself runs forever unchanged. Where that fault is enforced and the address it records are the
spec's decisions D7 and D30. -/
def Obligations.JumpGoesToItsAddress : Prop :=
  ∀ (s : State) (addr : Nat), addr ≤ 0xFFF →
    EncodedIn 0x1000 0xF000 (.jp addr) ∧
    CompletesAt addr noCell (.jp addr) s FaultsAtNextFetch ∧
    (s.pc.toNat = addr → exec (.jp addr) s = .next s)

/-- BNNN (decision D7 for a sum above 0xFFF): PC becomes NNN + V0, the exact sum; nothing else changes; a target past 0xFFE
faults at the next fetch, with the address of decision D30. -/
def Obligations.IndexedJumpAddsV0 : Prop :=
  ∀ (s : State) (addr : Nat), addr ≤ 0xFFF →
    EncodedIn 0xB000 0xF000 (.jpV0 addr) ∧
    CompletesAt (addr + s.v[(0 : Reg)].toNat) noCell (.jpV0 addr) s FaultsAtNextFetch

/-- 3XNN and 4XNN (42_control_flow.md, R165, R166): PC advances by 4 when the condition holds and by 2 when it does not;
nothing else changes; a target past 0xFFE faults at the next fetch, which rests with the address it records on the spec's
decisions D7 and D30. PC is that of a fetched instruction, at most 0xFFE. -/
def Obligations.ImmediateSkipsAdvanceByTwoOrFour : Prop :=
  ∀ (s : State) (x : Reg) (nn : Byte), s.pc.toNat ≤ 0xFFE →
    (EncodedIn 0x3000 0xF000 (.seImm x nn) ∧
      CompletesAt (if s.v[x] = nn then s.pc.toNat + 4 else s.pc.toNat + 2) noCell (.seImm x nn) s FaultsAtNextFetch) ∧
    (EncodedIn 0x4000 0xF000 (.sneImm x nn) ∧
      CompletesAt (if s.v[x] ≠ nn then s.pc.toNat + 4 else s.pc.toNat + 2) noCell (.sneImm x nn) s FaultsAtNextFetch)

/-- 5XY0 and 9XY0 (42_control_flow.md, R167, R168): the same comparing V[X] with V[Y]; any low nibble is accepted by default,
and only 0 under SKIP59_LOW_NIBBLE = Fault (decision D11); X = Y always skips with 5XY0 and never with 9XY0. The fault of a
target past 0xFFE rests on decisions D7 and D30. -/
def Obligations.RegisterSkipsAdvanceByTwoOrFour : Prop :=
  ∀ (s : State) (x y : Reg), s.pc.toNat ≤ 0xFFE →
    (EncodedIn 0x5000 0xF000 (.seReg x y) ∧
      (∀ n ≤ 0xF, decode (encXYN 0x5 x y n) = some (.seReg x y)) ∧
      (∀ n ≤ 0xF, n ≠ 0 → decodeUnder .fault (encXYN 0x5 x y n) = none) ∧
      CompletesAt (if s.v[x] = s.v[y] then s.pc.toNat + 4 else s.pc.toNat + 2) noCell (.seReg x y) s
        FaultsAtNextFetch) ∧
    (EncodedIn 0x9000 0xF000 (.sneReg x y) ∧
      (∀ n ≤ 0xF, decode (encXYN 0x9 x y n) = some (.sneReg x y)) ∧
      (∀ n ≤ 0xF, n ≠ 0 → decodeUnder .fault (encXYN 0x9 x y n) = none) ∧
      CompletesAt (if s.v[x] ≠ s.v[y] then s.pc.toNat + 4 else s.pc.toNat + 2) noCell (.sneReg x y) s
        FaultsAtNextFetch) ∧
    (x = y → CompletesAt (s.pc.toNat + 4) noCell (.seReg x y) s FaultsAtNextFetch ∧
      CompletesAt (s.pc.toNat + 2) noCell (.sneReg x y) s FaultsAtNextFetch)

/-- 2NNN (42_control_flow.md, R164): below 16 entries the CALL's own address is pushed, SP grows by one and PC becomes NNN;
at 16 it faults StackOverflow with everything else unchanged. That the cell at SP is the one written, before SP grows, is
the spec's decision D6 (log 20), that a PC past 0xFFE is kept exactly and faults at the next fetch its decision D7, the
address that fault records D30, and the record itself D8. -/
def Obligations.CallPushesItsOwnAddress : Prop :=
  ∀ (s : State) (addr : Nat), addr ≤ 0xFFF →
    EncodedIn 0x2000 0xF000 (.call addr) ∧
    (s.sp.val < 16 →
      CompletesAt addr (fun c => c = .sp ∨ ∃ k : Fin 16, k.val = s.sp.val ∧ c = .stack k) (.call addr) s (fun t =>
        t.sp.val = s.sp.val + 1 ∧ (∀ k : Fin 16, k.val = s.sp.val → t.stack[k] = s.pc) ∧ FaultsAtNextFetch t)) ∧
    (s.sp.val = 16 → FaultsWith .stackOverflow none (.call addr) s)

/-- 00EE (42_control_flow.md, R162): with an entry held, SP falls by one and PC becomes the popped value + 2; with none it
faults StackUnderflow with everything else unchanged. The popped value of a run is at most 0xFFE (10_state.md R27). That the
cell below SP is the one popped and keeps its value is the spec's decision D6 (log 20), that a PC past 0xFFE is kept exactly
and faults at the next fetch its decision D7, the address that fault records D30, and the record itself D8. -/
def Obligations.ReturnGoesPastTheCall : Prop :=
  ∀ s : State,
    encode .ret = 0x00EE ∧ EncodedIn 0x00EE 0xFFFF .ret ∧
    (∀ k : Fin 16, s.sp.val = k.val + 1 → s.stack[k].toNat ≤ 0xFFE →
      CompletesAt (s.stack[k].toNat + 2) (· = .sp) .ret s (fun t => t.sp.val = k.val ∧ FaultsAtNextFetch t)) ∧
    (s.sp.val = 0 → FaultsWith .stackUnderflow none .ret s)

/-- A call followed at once by a return comes back past the call, at every depth below 16 (95_test_vectors.md property
P-C). -/
def Obligations.CallThenReturnComesBack : Prop :=
  ∀ (s : State) (addr : Nat), s.sp.val < 16 →
    ∃ t u, exec (.call addr) s = .next t ∧ exec .ret t = .next u ∧
      u.pc = s.pc + 2 ∧ u.sp = s.sp ∧ Frame (fun c => ∃ k : Fin 16, k.val = s.sp.val ∧ c = .stack k) s u

/-! ## Index register and memory transfer (43_index_memory.md) -/

/-- ANNN (R190): I becomes NNN, zero-extended; nothing else changes. -/
def Obligations.SetIndexLoadsTheAddress : Prop :=
  ∀ (s : State) (addr : Nat), addr ≤ 0xFFF →
    EncodedIn 0xA000 0xF000 (.ldI addr) ∧
    CompletesWithin (· = .i) (.ldI addr) s (fun t => t.i.toNat = addr)

/-- FX1E (decision D3): I becomes the sum modulo 2^16; VF is unchanged by default, and under FlagAbove0xFFF becomes 1 when
the exact sum passes 0xFFF, else 0. -/
def Obligations.AddToIndexUnderEachPolicy : Prop :=
  ∀ (p : Config.Policy) (s : State) (x : Reg),
    EncodedIn 0xF01E 0xF0FF (.addI x) ∧
    CompletesWithin (· = .i) (.addI x) s (fun t => t.i.toNat = (s.i.toNat + s.v[x].toNat) % 65536) ∧
    (p.fx1eVf = .unchanged → execUnder p (.addI x) s = exec (.addI x) s) ∧
    (p.fx1eVf = .flagAbove0xFFF →
      ∃ t, execUnder p (.addI x) s = .next t ∧ t.pc = s.pc + 2 ∧ Frame (fun c => c = .i ∨ c = .v 15) s t ∧
        t.i.toNat = (s.i.toNat + s.v[x].toNat) % 65536 ∧
        t.v[(15 : Reg)].toNat = if s.i.toNat + s.v[x].toNat > 0xFFF then 1 else 0)

/-- FX29 (decision D17 for the order of the glyphs): I becomes 5 times the low nibble of V[X], so that in every state of a
run the five bytes there are the glyph's rows. -/
def Obligations.GlyphAddressPointsAtItsRows : Prop :=
  ∀ (s : State) (x : Reg),
    EncodedIn 0xF029 0xF0FF (.ldF x) ∧
    CompletesWithin (· = .i) (.ldF x) s (fun t => t.i.toNat = 5 * (s.v[x].toNat % 16) ∧
      (Inv s → ∀ r, (h : r < 5) →
        t.mem.read (t.i.toNat + r) = Config.fontData[5 * (s.v[x].toNat % 16) + r]'(by omega)))

/-- FX33 (decision D15 for the font region, D25 for the recorded address): the three decimal digits of V[X] go to I, I+1
and I+2; past 0xFFF it faults OutOfBounds at max(I, 0x1000), in the font region FontWrite at I, and then nothing is
written. -/
def Obligations.DecimalDigitsAreStored : Prop :=
  ∀ (s : State) (x : Reg),
    EncodedIn 0xF033 0xF0FF (.ldB x) ∧
    (0x04F < s.i.toNat → s.i.toNat + 2 ≤ 0xFFF →
      CompletesWithin (bytesFrom s.i.toNat 3) (.ldB x) s (fun t =>
        (t.mem.read s.i.toNat).toNat = s.v[x].toNat / 100 ∧
        (t.mem.read (s.i.toNat + 1)).toNat = s.v[x].toNat / 10 % 10 ∧
        (t.mem.read (s.i.toNat + 2)).toNat = s.v[x].toNat % 10)) ∧
    (0xFFF < s.i.toNat + 2 → FaultsWith .outOfBounds (some (max s.i.toNat 0x1000)) (.ldB x) s) ∧
    (s.i.toNat ≤ 0x04F → FaultsWith .fontWrite (some s.i.toNat) (.ldB x) s)

/-- FX55 (decision D14: I is unchanged; D15, D25 for its faults): V0..VX go to I..I+X; otherwise the lowest failing address
is recorded and nothing is written. -/
def Obligations.RegisterDumpStoresV0ToVX : Prop :=
  ∀ (s : State) (x : Reg),
    EncodedIn 0xF055 0xF0FF (.saveRegs x) ∧
    (0x04F < s.i.toNat → s.i.toNat + x.val ≤ 0xFFF →
      CompletesWithin (bytesFrom s.i.toNat (x.val + 1)) (.saveRegs x) s (fun t =>
        ∀ k : Reg, k ≤ x → t.mem.read (s.i.toNat + k.val) = s.v[k])) ∧
    (0xFFF < s.i.toNat + x.val → FaultsWith .outOfBounds (some (max s.i.toNat 0x1000)) (.saveRegs x) s) ∧
    (s.i.toNat ≤ 0x04F → FaultsWith .fontWrite (some s.i.toNat) (.saveRegs x) s)

/-- FX65 (decision D14: I is unchanged; D25 for its fault): V0..VX are loaded from I..I+X, the font region included;
otherwise the lowest failing address is recorded and no register changes. -/
def Obligations.RegisterLoadReadsV0ToVX : Prop :=
  ∀ (s : State) (x : Reg),
    EncodedIn 0xF065 0xF0FF (.loadRegs x) ∧
    (s.i.toNat + x.val ≤ 0xFFF →
      CompletesWithin (fun c => ∃ k : Reg, k ≤ x ∧ c = .v k) (.loadRegs x) s (fun t =>
        ∀ k : Reg, k ≤ x → t.v[k] = s.mem.read (s.i.toNat + k.val))) ∧
    (0xFFF < s.i.toNat + x.val → FaultsWith .outOfBounds (some (max s.i.toNat 0x1000)) (.loadRegs x) s)

/-- FX33 and FX55 under FONT_WRITE_POLICY = Allow (decision D15): wherever the range exists, the font region included, the
bytes are written. -/
def Obligations.StoresReachTheFontUnderAllow : Prop :=
  ∀ (p : Config.Policy) (s : State) (x : Reg), p.fontWrite = .allow →
    (s.i.toNat + 2 ≤ 0xFFF → ∃ t, execUnder p (.ldB x) s = .next t ∧ t.pc = s.pc + 2 ∧
      Frame (bytesFrom s.i.toNat 3) s t ∧ (t.mem.read s.i.toNat).toNat = s.v[x].toNat / 100 ∧
      (t.mem.read (s.i.toNat + 1)).toNat = s.v[x].toNat / 10 % 10 ∧
      (t.mem.read (s.i.toNat + 2)).toNat = s.v[x].toNat % 10) ∧
    (s.i.toNat + x.val ≤ 0xFFF → ∃ t, execUnder p (.saveRegs x) s = .next t ∧ t.pc = s.pc + 2 ∧
      Frame (bytesFrom s.i.toNat (x.val + 1)) s t ∧ ∀ k : Reg, k ≤ x → t.mem.read (s.i.toNat + k.val) = s.v[k])

/-- A store is seen by the very next fetch of the bytes written (decision D31): FX55 that writes the two bytes after itself
makes V0 and V1 the next opcode. -/
def Obligations.StoreIsSeenByTheNextFetch : Prop :=
  ∀ (s : State) (x : Reg), 1 ≤ x.val → 0x04F < s.i.toNat → s.i.toNat + x.val ≤ 0xFFF →
    s.i.toNat = s.pc.toNat + 2 →
    ∃ t, exec (.saveRegs x) s = .next t ∧ t.pc.toNat = s.i.toNat ∧
      opcodeAtPc t = opcodeOf s.v[(0 : Reg)] s.v[(1 : Reg)]

/-! ## Timers (44_timers.md) -/

/-- FX07, FX15 and FX18 (R220, R221, R222): V[X] <- DT, DT <- V[X], ST <- V[X], and nothing else; after FX18 the tone is on
until V[X] ticks have come, and not at all where V[X] is 0. -/
def Obligations.TimerInstructionsMoveTheirTimer : Prop :=
  ∀ (s : State) (x : Reg),
    (EncodedIn 0xF007 0xF0FF (.ldVxDt x) ∧
      CompletesWithin (· = .v x) (.ldVxDt x) s (fun t => t.v[x] = s.dt)) ∧
    (EncodedIn 0xF015 0xF0FF (.ldDtVx x) ∧
      CompletesWithin (· = .dt) (.ldDtVx x) s (fun t => t.dt = s.v[x])) ∧
    (EncodedIn 0xF018 0xF0FF (.ldStVx x) ∧
      CompletesWithin (· = .st) (.ldStVx x) s (fun t =>
        t.st = s.v[x] ∧ ∀ n : Nat, soundOn (tick^[n] t) = true ↔ n < s.v[x].toNat))

/-- TICK (decision D20: also halted or waiting): after n ticks each timer is n lower, floored at 0, and nothing else has
changed. -/
def Obligations.TicksCountDownBothTimers : Prop :=
  ∀ (n : Nat) (s : State),
    (tick^[n] s).dt.toNat = s.dt.toNat - n ∧ (tick^[n] s).st.toNat = s.st.toNat - n ∧
    (tick^[n] s).pc = s.pc ∧ Frame (fun c => c = .dt ∨ c = .st) s (tick^[n] s) ∧
    (soundOn (tick^[n] s) = true ↔ n < s.st.toNat)

/-! ## Input (45_input.md) -/

/-- EX9E and EXA1: with V[X] at most 15, PC advances by 4 or 2 as the key is pressed or not; above 15 they fault
KeyIndexOutOfRange by default, and test the low nibble's key under LowNibble (decision D12). A target past 0xFFE faults at
the next fetch (decisions D7, D30). -/
def Obligations.KeySkipsFollowTheKeypad : Prop :=
  ∀ (s : State) (x : Reg) (k : Fin 16), s.pc.toNat ≤ 0xFFE →
    EncodedIn 0xE09E 0xF0FF (.skp x) ∧ EncodedIn 0xE0A1 0xF0FF (.sknp x) ∧
    (s.v[x].toNat = k.val →
      CompletesAt (if s.key[k] then s.pc.toNat + 4 else s.pc.toNat + 2) noCell (.skp x) s FaultsAtNextFetch ∧
      CompletesAt (if s.key[k] then s.pc.toNat + 2 else s.pc.toNat + 4) noCell (.sknp x) s FaultsAtNextFetch) ∧
    (0xF < s.v[x].toNat →
      FaultsWith .keyIndexOutOfRange none (.skp x) s ∧ FaultsWith .keyIndexOutOfRange none (.sknp x) s ∧
      ∀ p : Config.Policy, p.keyIndex = .lowNibble → s.v[x].toNat % 16 = k.val →
        execUnder p (.skp x) s = .next (s.setPc (if s.key[k] then s.pc + 4 else s.pc + 2)) ∧
        execUnder p (.sknp x) s = .next (s.setPc (if s.key[k] then s.pc + 2 else s.pc + 4)))

/-- FX0A (decision D13: the keypad's level; any of several keys): with no key pressed nothing changes; with one or more, V[X]
becomes the index of a pressed key, whichever is drawn. -/
def Obligations.KeyWaitTakesAPressedKey : Prop :=
  ∀ (s : State) (x : Reg),
    EncodedIn 0xF00A 0xF0FF (.ldVxK x) ∧
    ((∀ k : Fin 16, s.key[k] = false) → exec (.ldVxK x) s = .next s) ∧
    ((∃ k : Fin 16, s.key[k] = true) →
      CompletesWithin (fun c => c = .v x ∨ c = .draws) (.ldVxK x) s (fun t =>
        ∃ k : Fin 16, s.key[k] = true ∧ t.v[x].toNat = k.val)) ∧
    (∀ k : Fin 16, (∀ j : Fin 16, s.key[j] = true ↔ j = k) →
      CompletesWithin (· = .v x) (.ldVxK x) s (fun t => t.v[x].toNat = k.val))

/-- A waiting machine re-presents the same instruction on every step until a key is pressed, then completes in exactly one
further step (95_test_vectors.md property P-E). -/
def Obligations.WaitingEndsAtTheFirstKey : Prop :=
  ∀ (s : State) (key : Keypad) (k : Fin 16), Waiting s → key[k] = true →
    step s = .next s ∧ stepReport s s = .waiting ∧
    ∃ t, step (s.setKeys key) = .next t ∧ t.pc = s.pc + 2 ∧ stepReport (s.setKeys key) t = .retired

/-! ## Draw (46_draw.md) -/

/-- DXYN (R260, R261): the pixels of the sprite's set bits, wrapped at the edges, flip and no other; VF is 1 exactly when one
of them was 1 before, else 0; the coordinates are V[X] and V[Y] before VF is written; a sprite past 0xFFF faults OutOfBounds
and changes nothing; N = 0 reads nothing and sets VF to 0. -/
def Obligations.DrawFlipsExactlyTheSprite : Prop :=
  ∀ (s : State) (x y : Reg) (n : Nat), n ≤ 0xF →
    EncodedIn 0xD000 0xF000 (.drw x y n) ∧
    (n = 0 ∨ s.i.toNat + n ≤ 0x1000 →
      CompletesWithin (fun c => c = .v 15 ∨ ∃ q, SpriteSets .wrap x y n s q ∧ c = .pixel q) (.drw x y n) s (fun t =>
        (∀ q, SpriteSets .wrap x y n s q → pixelAt t.fb q = !pixelAt s.fb q) ∧
        ((∃ q, SpriteSets .wrap x y n s q ∧ pixelAt s.fb q = true) → t.v[(15 : Reg)] = 1) ∧
        ((¬ ∃ q, SpriteSets .wrap x y n s q ∧ pixelAt s.fb q = true) → t.v[(15 : Reg)] = 0))) ∧
    (n ≠ 0 → 0x1000 < s.i.toNat + n →
      FaultsWith .outOfBounds (some (max s.i.toNat 0x1000)) (.drw x y n) s)

/-- DXYN under DRAW_EDGE_POLICY = Clip (decision D4, the spec's general knowledge G7): the same with pixels past the right or
bottom edge neither drawn nor counted. -/
def Obligations.ClippedDrawDropsPixelsPastTheEdges : Prop :=
  ∀ (p : Config.Policy) (s : State) (x y : Reg) (n : Nat), p.drawEdge = .clip → n ≤ 0xF →
    (n = 0 ∨ s.i.toNat + n ≤ 0x1000) →
    ∃ t, execUnder p (.drw x y n) s = .next t ∧ t.pc = s.pc + 2 ∧
      Frame (fun c => c = .v 15 ∨ ∃ q, SpriteSets .clip x y n s q ∧ c = .pixel q) s t ∧
      (∀ q, SpriteSets .clip x y n s q → pixelAt t.fb q = !pixelAt s.fb q) ∧
      ((∃ q, SpriteSets .clip x y n s q ∧ pixelAt s.fb q = true) → t.v[(15 : Reg)] = 1) ∧
      ((¬ ∃ q, SpriteSets .clip x y n s q ∧ pixelAt s.fb q = true) → t.v[(15 : Reg)] = 0)

/-- Drawing the same sprite at the same place twice restores the framebuffer, and each VF reports its own draw's collisions
(95_test_vectors.md property P-D): the first draw's whether it met a pixel that was 1, the second's whether the first met one
that was 0. (46_draw.md says of the second that it is 1 exactly when the sprite has a visible set bit; by the same file's own
definition of collision that holds only where the sprite met no pixel that was 1: log 19.) Under both edge policies. -/
def Obligations.DrawingTwiceRestoresTheScreen : Prop :=
  ∀ (p : Config.Policy) (s t u : State) (x y : Reg) (n : Nat), n ≤ 0xF →
    (n = 0 ∨ s.i.toNat + n ≤ 0x1000) →
    execUnder p (.drw x y n) s = .next t → execUnder p (.drw x y n) t = .next u →
    t.v[x].toNat % 64 = s.v[x].toNat % 64 → t.v[y].toNat % 32 = s.v[y].toNat % 32 →
      u.fb = s.fb ∧
      t.v[(15 : Reg)].toNat ≤ 1 ∧ u.v[(15 : Reg)].toNat ≤ 1 ∧
      (t.v[(15 : Reg)] = 1 ↔ ∃ q, SpriteSets p.drawEdge x y n s q ∧ pixelAt s.fb q = true) ∧
      (u.v[(15 : Reg)] = 1 ↔ ∃ q, SpriteSets p.drawEdge x y n s q ∧ pixelAt s.fb q = false)

/-! ## The host interface (60_exceptions.md section 5, 70_reset_and_hazards.md) -/

/-- LOAD: up to 3584 bytes go to 0x200 on and nothing else changes; a longer program is rejected and nothing is written;
after the first STEP it is no move of the model (decision D36; log 14). -/
def Obligations.LoadPlacesTheProgramOrRejectsIt : Prop :=
  ∀ (c : Session) (program : List Byte),
    (c.stepped = false → program.length ≤ 3584 →
      ∃ t, transact (.load program) c = .next ({ machine := t, stepped := false }, .loaded) ∧ t.pc = c.machine.pc ∧
        Frame (bytesFrom 0x200 program.length) c.machine t ∧
        ∀ k, (h : k < program.length) → t.mem.read (0x200 + k) = program[k]) ∧
    (c.stepped = false → 3584 < program.length → transact (.load program) c = .next (c, .programTooLarge)) ∧
    (c.stepped = true → transact (.load program) c = .refused .loadNotAdmitted)

/-- Boot (70_reset_and_hazards.md section 2): after RESET and LOAD the first STEP runs the program's first word, at 0x200. -/
def Obligations.BootRunsTheFirstWord : Prop :=
  ∀ (hi lo : Byte) (rest : List Byte) (i : Instr), rest.length ≤ 3582 → decode (opcodeOf hi lo) = some i →
    ∃ s, boot (hi :: lo :: rest) = some s ∧ s.pc = 0x200 ∧ step s = exec i s

/-- STEP, TICK, SET_KEYS, RESET and the reads, as the table of 60_exceptions.md section 5 gives them: what each does and what
the host gets back. RESET leaves the reset state (decision D19) but for the model's own draw counter (log 7). -/
def Obligations.TransactionsFollowTheTable : Prop :=
  ∀ c : Session,
    (∃ t, step c.machine = .next t ∧
      transact .step c = .next ({ machine := t, stepped := true }, .stepped (stepReport c.machine t))) ∧
    transact .tick c = .next ({ c with machine := tick c.machine }, .nothing) ∧
    (∀ key, ∃ t, transact (.setKeys key) c = .next ({ c with machine := t }, .nothing) ∧ t.key = key ∧
      t.pc = c.machine.pc ∧ Frame (fun cell => ∃ k, cell = .key k) c.machine t) ∧
    transact .readFb c = .next (c, .screen c.machine.fb) ∧
    transact .soundOn c = .next (c, .sound (decide (c.machine.st ≠ 0))) ∧
    transact .readFault c = .next (c, .faultRecord c.machine.fault) ∧
    (∃ t, transact .reset c = .next ({ machine := t, stepped := false }, .nothing) ∧ t.pc = State.reset.pc ∧
      Frame (· = .draws) State.reset t)

/-- A halted machine stays as it is under every STEP, TICK, SET_KEYS and read, but for the timers and the keypad; only RESET
ends it (decision D8). -/
def Obligations.HaltedUntilReset : Prop :=
  ∀ (xs : List Transaction) (c : Session), Halted c.machine → (∀ x ∈ xs, x ≠ .reset ∧ ∀ b, x ≠ .load b) →
    ∃ c', transactAll xs c = .next c' ∧ c'.machine.pc = c.machine.pc ∧
      Frame (fun cell => cell = .dt ∨ cell = .st ∨ ∃ k, cell = .key k) c.machine c'.machine

/-- A parked machine stays parked under every STEP, TICK, SET_KEYS and read, and only the timers and the keypad change
(decision D35). -/
def Obligations.ParkedStaysParked : Prop :=
  ∀ (xs : List Transaction) (c : Session), Parked c.machine → (∀ x ∈ xs, x ≠ .reset ∧ ∀ b, x ≠ .load b) →
    ∃ c', transactAll xs c = .next c' ∧ Parked c'.machine ∧ c'.machine.pc = c.machine.pc ∧
      Frame (fun cell => cell = .dt ∨ cell = .st ∨ ∃ k, cell = .key k) c.machine c'.machine
end

