-- ==== Sys2Proof/Laws/Decode.lean ====
section
/-! SUPPORT. The fields of an encoded word, and the opcode of its two bytes: the lemmas every decoding proof starts
from. -/

namespace Sys2Proof

theorem encAddr_toNat {family addr : Nat} (hf : family < 16) (ha : addr ≤ 0xFFF) :
    (encAddr family addr).toNat = family * 4096 + addr := by
  simp only [encAddr, BitVec.toNat_ofNat]; omega

theorem encXNN_toNat {family nn : Nat} (x : Reg) (hf : family < 16) (hn : nn ≤ 0xFF) :
    (encXNN family x nn).toNat = family * 4096 + x.val * 256 + nn := by
  have := x.isLt
  simp only [encXNN, BitVec.toNat_ofNat]; omega

theorem encXYN_toNat {family n : Nat} (x y : Reg) (hf : family < 16) (hn : n ≤ 0xF) :
    (encXYN family x y n).toNat = family * 4096 + x.val * 256 + y.val * 16 + n := by
  have := x.isLt
  have := y.isLt
  simp only [encXYN, BitVec.toNat_ofNat]; omega

/-! ## The fields of an encoded word -/

section
variable {family addr nn n : Nat} (x y : Reg)

theorem familyOf_encAddr (hf : family < 16) (ha : addr ≤ 0xFFF) : familyOf (encAddr family addr) = family := by
  rw [familyOf, encAddr_toNat hf ha]; omega

theorem nnnOf_encAddr (hf : family < 16) (ha : addr ≤ 0xFFF) : nnnOf (encAddr family addr) = addr := by
  rw [nnnOf, encAddr_toNat hf ha]; omega

theorem familyOf_encXNN (hf : family < 16) (hn : nn ≤ 0xFF) : familyOf (encXNN family x nn) = family := by
  have := x.isLt
  rw [familyOf, encXNN_toNat x hf hn]; omega

theorem xOf_encXNN (hf : family < 16) (hn : nn ≤ 0xFF) : xOf (encXNN family x nn) = x := by
  have := x.isLt
  apply Fin.ext
  simp only [xOf, encXNN_toNat x hf hn, Fin.val_ofNat]; omega

theorem nnOf_encXNN (hf : family < 16) (hn : nn ≤ 0xFF) : (nnOf (encXNN family x nn)).toNat = nn := by
  have := x.isLt
  simp only [nnOf, encXNN_toNat x hf hn, BitVec.toNat_ofNat]; omega

theorem familyOf_encXYN (hf : family < 16) (hn : n ≤ 0xF) : familyOf (encXYN family x y n) = family := by
  have := x.isLt
  have := y.isLt
  rw [familyOf, encXYN_toNat x y hf hn]; omega

theorem xOf_encXYN (hf : family < 16) (hn : n ≤ 0xF) : xOf (encXYN family x y n) = x := by
  have := x.isLt
  have := y.isLt
  apply Fin.ext
  simp only [xOf, encXYN_toNat x y hf hn, Fin.val_ofNat]; omega

theorem yOf_encXYN (hf : family < 16) (hn : n ≤ 0xF) : yOf (encXYN family x y n) = y := by
  have := x.isLt
  have := y.isLt
  apply Fin.ext
  simp only [yOf, encXYN_toNat x y hf hn, Fin.val_ofNat]; omega

theorem nOf_encXYN (hf : family < 16) (hn : n ≤ 0xF) : nOf (encXYN family x y n) = n := by
  have := x.isLt
  have := y.isLt
  rw [nOf, encXYN_toNat x y hf hn]; omega

end

/-! ## Opcodes and bytes -/

theorem opcodeOf_toNat (hi lo : Byte) : (opcodeOf hi lo).toNat = hi.toNat * 256 + lo.toNat := by
  have := hi.isLt
  have := lo.isLt
  simp only [opcodeOf, BitVec.toNat_ofNat]; omega

/-- The two bytes of an opcode, high byte first, make it again (20_memory.md R57). -/
@[simp] theorem opcodeOf_bytes (w : Word) : opcodeOf (highByte w) (lowByte w) = w := by
  apply BitVec.eq_of_toNat_eq
  have := w.isLt
  rw [opcodeOf_toNat]
  simp only [highByte, lowByte, BitVec.toNat_ofNat]; omega

theorem decodeBytes_pair (w : Word) (rest : List Byte) :
    decodeBytes (highByte w :: lowByte w :: rest) =
      match decode w with
      | some i => .instr i rest
      | none => .unknownOpcode w := by
  cases h : decode w <;> simp [decodeBytes, h]

/-- A table word decodes as the opcode it is. -/
theorem decodeTableWord_eq (nbits w : Nat) : decodeTableWord nbits w = decode (tableWord nbits w) := by
  unfold decodeTableWord
  rw [decodeBytes_pair]
  cases decode (tableWord nbits w) <;> rfl

end Sys2Proof
end

