-- ==== Sys2Proof/Laws/Memory.lean ====
section
/-! SUPPORT. The laws of memory: a read after a write, and the canonical form that every operation keeps
(20_memory.md R60; log 9). -/

namespace Sys2Proof.Machine

theorem Memory.read_insert (m : Memory) (a a' : Nat) (b : Byte) :
    (Memory.insert m a b).read a' = if a' = a then b else m.read a' := by
  induction m with
  | nil => simp only [Memory.insert, Memory.read, eq_comm]
  | cons c m ih =>
    obtain ⟨k, c⟩ := c
    simp only [Memory.insert]
    split
    · simp only [Memory.read, eq_comm (a := a)]
    · split
      · rename_i hk
        subst hk
        by_cases h : a' = a
        · simp [Memory.read, h]
        · simp [Memory.read, h, Ne.symm h]
      · by_cases h : k = a'
        · have : a' ≠ a := by omega
          simp [Memory.read, h, this]
        · simp [Memory.read, h, ih]

theorem Memory.read_filter (m : Memory) (a a' : Nat) :
    Memory.read (m.filter (fun c => c.1 != a)) a' = if a' = a then Memory.unlisted a else m.read a' := by
  induction m with
  | nil => by_cases h : a' = a <;> simp [Memory.read, h]
  | cons c m ih =>
    obtain ⟨k, c⟩ := c
    by_cases hk : k = a
    · subst hk
      simp only [List.filter, bne_self_eq_false, ih]
      by_cases h : a' = k
      · simp [h]
      · simp [h, Memory.read, Ne.symm h]
    · have hb : (k != a) = true := by simpa using hk
      simp only [List.filter, hb, Memory.read, ih]
      by_cases h : k = a'
      · subst h; simp [hk]
      · simp [h]

/-- A read after a write: the byte written at its address, every other byte as before (R60). -/
theorem Memory.read_write (m : Memory) (a a' : Nat) (b : Byte) :
    (m.write a b).read a' = if a' = a then b else m.read a' := by
  unfold Memory.write
  split
  · rename_i h
    rw [Memory.read_filter]
    split
    · exact h.symm
    · rfl
  · exact Memory.read_insert m a a' b

@[simp] theorem Memory.read_write_same (m : Memory) (a : Nat) (b : Byte) : (m.write a b).read a = b := by
  rw [Memory.read_write, if_pos rfl]

theorem Memory.read_write_ne (m : Memory) (a a' : Nat) (b : Byte) (h : a' ≠ a) :
    (m.write a b).read a' = m.read a' := by
  rw [Memory.read_write, if_neg h]

/-- A read after a run of writes: the k-th byte at the k-th address, every other byte as before. -/
theorem Memory.read_writeBytes (m : Memory) (a a' : Nat) (bs : List Byte) :
    (m.writeBytes a bs).read a' = if h : a ≤ a' ∧ a' < a + bs.length then bs[a' - a]'(by omega) else m.read a' := by
  induction bs generalizing m a with
  | nil =>
    have : ¬ (a ≤ a' ∧ a' < a + ([] : List Byte).length) := by simp
    simp only [Memory.writeBytes, this, dite_false]
  | cons b bs ih =>
    simp only [Memory.writeBytes, ih, Memory.read_write, List.length_cons]
    rcases Nat.lt_trichotomy a' a with h | h | h
    · have h1 : ¬ (a + 1 ≤ a' ∧ a' < a + 1 + bs.length) := by omega
      have h2 : ¬ (a ≤ a' ∧ a' < a + (bs.length + 1)) := by omega
      have h3 : a' ≠ a := by omega
      simp only [h1, h2, h3, dite_false, if_false]
    · subst h
      have h1 : ¬ (a' + 1 ≤ a' ∧ a' < a' + 1 + bs.length) := by omega
      have h2 : a' ≤ a' ∧ a' < a' + (bs.length + 1) := by omega
      simp only [h1, h2, dite_false, dite_true, if_true, Nat.sub_self, List.getElem_cons_zero, and_self]
    · have h3 : a' ≠ a := by omega
      by_cases h1 : a + 1 ≤ a' ∧ a' < a + 1 + bs.length
      · have h2 : a ≤ a' ∧ a' < a + (bs.length + 1) := by omega
        have h4 : a' - a = (a' - (a + 1)) + 1 := by omega
        simp only [h1, h2, dite_true, h4, List.getElem_cons_succ, and_self]
      · have h2 : ¬ (a ≤ a' ∧ a' < a + (bs.length + 1)) := by omega
        simp only [h1, h2, h3, dite_false, if_false]

/-- Bytes outside a run of writes read as before. -/
theorem Memory.read_writeBytes_outside (m : Memory) (a a' : Nat) (bs : List Byte)
    (h : a' < a ∨ a + bs.length ≤ a') : (m.writeBytes a bs).read a' = m.read a' := by
  rw [Memory.read_writeBytes, dif_neg (by omega)]

/-! ## The canonical form -/

theorem Memory.wfFrom_mono {lo lo' : Nat} {m : Memory} (h : lo' ≤ lo) (hm : Memory.wfFrom lo m = true) :
    Memory.wfFrom lo' m = true := by
  cases m with
  | nil => rfl
  | cons c m =>
    simp only [Memory.wfFrom, Bool.and_eq_true, decide_eq_true_eq] at hm ⊢
    exact ⟨⟨by omega, hm.1.2⟩, hm.2⟩

theorem Memory.wfFrom_insert {lo a : Nat} {b : Byte} {m : Memory} (ha : a ≤ Config.addrMax) (hlo : lo ≤ a)
    (hb : b ≠ Memory.unlisted a) (hm : Memory.wfFrom lo m = true) :
    Memory.wfFrom lo (Memory.insert m a b) = true := by
  induction m generalizing lo with
  | nil => simp [Memory.insert, Memory.wfFrom, hlo, hb, ha]
  | cons c m ih =>
    obtain ⟨k, c⟩ := c
    simp only [Memory.wfFrom, Bool.and_eq_true, decide_eq_true_eq] at hm
    simp only [Memory.insert]
    split
    · simp only [Memory.wfFrom, Bool.and_eq_true, decide_eq_true_eq]
      exact ⟨⟨hlo, ha, hb⟩, ⟨by omega, hm.1.2⟩, hm.2⟩
    · split
      · rename_i hk
        subst hk
        simp only [Memory.wfFrom, Bool.and_eq_true, decide_eq_true_eq]
        exact ⟨⟨hlo, ha, hb⟩, hm.2⟩
      · simp only [Memory.wfFrom, Bool.and_eq_true, decide_eq_true_eq]
        exact ⟨hm.1, ih (by omega) hm.2⟩

theorem Memory.wfFrom_filter {lo : Nat} {m : Memory} (q : Host.Cell → Bool) (hm : Memory.wfFrom lo m = true) :
    Memory.wfFrom lo (m.filter q) = true := by
  induction m generalizing lo with
  | nil => rfl
  | cons c m ih =>
    obtain ⟨k, c⟩ := c
    simp only [Memory.wfFrom, Bool.and_eq_true, decide_eq_true_eq] at hm
    by_cases h : q (k, c) = true
    · simp only [List.filter, h, Memory.wfFrom, Bool.and_eq_true, decide_eq_true_eq]
      exact ⟨hm.1, ih hm.2⟩
    · simp only [List.filter, h]
      exact Memory.wfFrom_mono (by omega) (ih hm.2)

/-- A write to an address that exists keeps the canonical form. -/
theorem Memory.wf_write {m : Memory} {a : Nat} (b : Byte) (ha : a ≤ Config.addrMax) (hm : m.wf = true) :
    (m.write a b).wf = true := by
  unfold Memory.wf Memory.write at *
  split
  · exact Memory.wfFrom_filter _ hm
  · rename_i h
    exact Memory.wfFrom_insert ha (Nat.zero_le a) h hm

/-- A run of writes to addresses that exist keeps the canonical form. -/
theorem Memory.wf_writeBytes {m : Memory} {a : Nat} (bs : List Byte) (ha : a + bs.length ≤ Config.memSize)
    (hm : m.wf = true) : (m.writeBytes a bs).wf = true := by
  induction bs generalizing m a with
  | nil => exact hm
  | cons b bs ih =>
    simp only [List.length_cons] at ha
    exact ih (by omega) (Memory.wf_write b (by simp only [Config.addrMax, Config.memSize] at *; omega) hm)

/-- No byte is listed below the lower bound of a canonical list. -/
theorem Memory.read_below {lo a : Nat} {m : Memory} (h : a < lo) (hm : Memory.wfFrom lo m = true) :
    m.read a = Memory.unlisted a := by
  induction m generalizing lo with
  | nil => rfl
  | cons c m ih =>
    obtain ⟨k, c⟩ := c
    simp only [Memory.wfFrom, Bool.and_eq_true, decide_eq_true_eq] at hm
    have hk : k ≠ a := by omega
    simp only [Memory.read, hk, if_false]
    exact ih (lo := k + 1) (by omega) hm.2

/-- The form is canonical: memories that read alike at every address are the same list. -/
theorem Memory.wf_ext {lo : Nat} {m n : Memory} (hm : Memory.wfFrom lo m = true) (hn : Memory.wfFrom lo n = true)
    (h : ∀ a, m.read a = n.read a) : m = n := by
  induction m generalizing lo n with
  | nil =>
    cases n with
    | nil => rfl
    | cons d n =>
      simp only [Memory.wfFrom, Bool.and_eq_true, decide_eq_true_eq] at hn
      have := h d.1
      simp only [Memory.read, if_true] at this
      exact absurd this.symm hn.1.2.2
  | cons c m ih =>
    obtain ⟨k, c⟩ := c
    have hm' := hm
    simp only [Memory.wfFrom, Bool.and_eq_true, decide_eq_true_eq] at hm
    cases n with
    | nil =>
      have := h k
      simp only [Memory.read, if_true] at this
      exact absurd this hm.1.2.2
    | cons d n =>
      obtain ⟨l, d⟩ := d
      have hn' := hn
      simp only [Memory.wfFrom, Bool.and_eq_true, decide_eq_true_eq] at hn
      have hkl : k = l := by
        rcases Nat.lt_trichotomy k l with hlt | heq | hlt
        · have hr := h k
          have hb : Memory.read ((l, d) :: n) k = Memory.unlisted k :=
            Memory.read_below (lo := l) hlt (by
              simp only [Memory.wfFrom, Bool.and_eq_true, decide_eq_true_eq]
              exact ⟨⟨Nat.le_refl l, hn.1.2⟩, hn.2⟩)
          rw [hb] at hr
          simp only [Memory.read, if_true] at hr
          exact absurd hr hm.1.2.2
        · exact heq
        · have hr := h l
          have hb : Memory.read ((k, c) :: m) l = Memory.unlisted l :=
            Memory.read_below (lo := k) hlt (by
              simp only [Memory.wfFrom, Bool.and_eq_true, decide_eq_true_eq]
              exact ⟨⟨Nat.le_refl k, hm.1.2⟩, hm.2⟩)
          rw [hb] at hr
          simp only [Memory.read, if_true] at hr
          exact absurd hr.symm hn.1.2.2
      subst hkl
      have hcd : c = d := by simpa [Memory.read] using h k
      subst hcd
      have hmn : m = n := ih hm.2 hn.2 (fun a => by
        by_cases ha : k = a
        · subst ha
          rw [Memory.read_below (Nat.lt_succ_self k) hm.2, Memory.read_below (Nat.lt_succ_self k) hn.2]
        · have := h a
          simpa [Memory.read, ha] using this)
      rw [hmn]

theorem Memory.wf_reset : State.reset.mem.wf = true := rfl

end Sys2Proof.Machine
end

