-- ==== Sys2Proof/Laws/Ops.lean ====
section
/-! SUPPORT. One lemma per shared operation that says once all it can do, so that no later proof unfolds it. -/

namespace Sys2Proof.Machine

/-! ## Ends of a step -/

theorem advance_eq (s : State) : advance s = .next (s.setPc (s.pc + 2)) := rfl

theorem jumpTo_eq (target : Nat) (s : State) : jumpTo target s = .next (s.setPc (BitVec.ofNat 16 target)) := rfl

theorem skipIf_eq (c : Bool) (s : State) : skipIf c s = .next (s.setPc (if c then s.pc + 4 else s.pc + 2)) := rfl

theorem waitHere_eq (s : State) : waitHere s = .next s := rfl

theorem raiseFault_eq (k : FaultKind) (op : Option Word) (a : Option Nat) (s : State) :
    raiseFault k op a s = .next (s.setFault (some ⟨k, s.pc, op, a⟩)) := rfl

theorem raiseIn_eq (i : Instr) (k : FaultKind) (a : Option Nat) (s : State) :
    raiseIn i k a s = .next (s.setFault (some ⟨k, s.pc, some (encode i), a⟩)) := rfl

/-- A guarded meaning either raises the failure its check found or goes on. -/
theorem guarded_cases {i : Instr} {check : Option AccessFault} {k : State → Result} {s t : State}
    (h : guarded i check k s = .next t) :
    (∃ f, check = some f ∧ t = s.setFault (some ⟨f.kind, s.pc, some (encode i), some f.addr⟩)) ∨
    (check = none ∧ k s = .next t) := by
  cases check with
  | none => exact .inr ⟨rfl, h⟩
  | some f =>
    refine .inl ⟨f, rfl, ?_⟩
    simp only [guarded, raiseIn_eq, Host.Outcome.next.injEq] at h
    exact h.symm

/-! ## The stack (10_state.md R29) -/

theorem push_of_lt {s : State} (w : Word) (h : s.sp.val < 16) :
    push w s = some (s.setStack (s.stack.set s.sp.val w h) ⟨s.sp.val + 1, by omega⟩) := by
  simp only [push, h, dite_true]

theorem push_full {s : State} (w : Word) (h : s.sp = 16) : push w s = none := by
  have : ¬ s.sp.val < 16 := by rw [h]; decide
  simp only [push, this, dite_false]

theorem pop_of_pos {s : State} (h : s.sp.val ≠ 0) :
    pop s = some (s.stack[s.sp.val - 1], s.setStack s.stack ⟨s.sp.val - 1, by omega⟩) := by
  simp only [pop, h, dite_false]

theorem pop_empty {s : State} (h : s.sp = 0) : pop s = none := by
  have : s.sp.val = 0 := by rw [h]; rfl
  simp only [pop, this, dite_true]

/-! ## Address checks (20_memory.md R54, R55, R59) -/

/-- What CheckRead finds: nothing when the range is empty or ends by 0xFFF, else the lowest address past it. -/
theorem checkRead_eq (lo n : Nat) :
    checkRead lo n = if n = 0 ∨ lo + n ≤ 4096 then none else some ⟨.outOfBounds, max lo 4096⟩ := by
  induction n generalizing lo with
  | zero => simp [checkRead, firstFailure]
  | succ n ih =>
    have e : checkRead lo (n + 1) = match resolveRead lo with
      | some f => some f
      | none => checkRead (lo + 1) n := rfl
    rw [e, ih]
    by_cases h : lo > 4095
    · have hr : resolveRead lo = some ⟨.outOfBounds, lo⟩ := by simp [resolveRead, h]
      have h2 : ¬ (n + 1 = 0 ∨ lo + (n + 1) ≤ 4096) := by omega
      have h3 : max lo 4096 = lo := by omega
      simp only [hr, h2, h3, if_false]
    · have hr : resolveRead lo = none := by simp [resolveRead, h]
      by_cases h2 : lo + (n + 1) ≤ 4096
      · have h3 : n = 0 ∨ lo + 1 + n ≤ 4096 := by omega
        simp only [hr, h2, h3, or_true, if_true]
      · have h3 : ¬ (n = 0 ∨ lo + 1 + n ≤ 4096) := by omega
        have h4 : ¬ (n + 1 = 0 ∨ lo + (n + 1) ≤ 4096) := by omega
        have h5 : max (lo + 1) 4096 = max lo 4096 := by omega
        simp only [hr, h3, h4, h5, if_false]

/-- What CheckWrite finds: a start in the closed font region, else the lowest address past 0xFFF. -/
theorem checkWrite_eq (p : Config.FontWritePolicy) (lo n : Nat) :
    checkWrite p lo n =
      if n = 0 then none
      else if p = .fault ∧ lo ≤ 0x4F then some ⟨.fontWrite, lo⟩
      else if lo + n ≤ 4096 ∧ (p = .allow ∨ 0x4F < lo) then none
      else some ⟨.outOfBounds, max lo 4096⟩ := by
  induction n generalizing lo with
  | zero => simp [checkWrite, firstFailure]
  | succ n ih =>
    have e : checkWrite p lo (n + 1) = match resolveWrite p lo with
      | some f => some f
      | none => checkWrite p (lo + 1) n := rfl
    have hn : ¬ n + 1 = 0 := Nat.succ_ne_zero n
    rw [e, ih]
    by_cases hf : p = .fault ∧ lo ≤ 0x4F
    · have hlo : ¬ lo > 4095 := by omega
      have hr : resolveWrite p lo = some ⟨.fontWrite, lo⟩ := by simp [resolveWrite, hlo, hf]
      rw [hr, if_neg hn, if_pos hf]
    · have hok : p = .allow ∨ 0x4F < lo := by
        cases p with
        | allow => exact .inl rfl
        | fault => exact .inr (by by_contra hc; exact hf ⟨rfl, by omega⟩)
      have hf' : ¬ (p = .fault ∧ lo + 1 ≤ 0x4F) := fun hc => hf ⟨hc.1, by omega⟩
      have hok' : p = .allow ∨ 0x4F < lo + 1 := hok.imp_right (by omega)
      by_cases h : lo > 4095
      · have hr : resolveWrite p lo = some ⟨.outOfBounds, lo⟩ := by simp [resolveWrite, h]
        have h2 : ¬ lo + (n + 1) ≤ 4096 := by omega
        have h3 : max lo 4096 = lo := by omega
        simp only [hr, hn, hf, h2, h3, false_and, if_false]
      · have hr : resolveWrite p lo = none := by simp [resolveWrite, h, hf]
        by_cases h2 : lo + (n + 1) ≤ 4096
        · have h3 : lo + 1 + n ≤ 4096 := by omega
          simp only [hr, hn, hf, hf', h2, h3, hok, hok', and_self, if_false, if_true, ite_self]
        · have h3 : ¬ lo + 1 + n ≤ 4096 := by omega
          have h4 : ¬ n = 0 := by omega
          have h5 : max (lo + 1) 4096 = max lo 4096 := by omega
          simp only [hr, hn, hf, hf', h2, h3, h4, h5, false_and, if_false]

/-! ## Runs of registers -/

theorem fillRegs_read (f : Nat → Byte) (n : Nat) (v : Vector Byte 16) (r : Reg) :
    (fillRegs f n v)[r] = if r.val < n then f r.val else v[r] := by
  induction n with
  | zero => simp [fillRegs]
  | succ n ih =>
    simp only [fillRegs, Fin.getElem_fin] at ih ⊢
    rw [Vector.getElem_setIfInBounds, ih]
    by_cases h : n = r.val
    · subst h; simp
    · by_cases h2 : r.val < n
      · have : r.val < n + 1 := by omega
        simp [h, h2, this]
      · have : ¬ r.val < n + 1 := by omega
        simp [h, h2, this]

theorem regsUpTo_length (v : Vector Byte 16) (x : Reg) : (regsUpTo v x).length = x.val + 1 := by
  have := x.isLt
  simp only [regsUpTo, List.length_take, Vector.length_toList]
  omega

theorem regsUpTo_read (v : Vector Byte 16) (x : Reg) (k : Nat) (h : k < (regsUpTo v x).length) :
    (regsUpTo v x)[k] = v[k]'(by rw [regsUpTo_length] at h; omega) := by
  simp [regsUpTo]

/-! ## The framebuffer -/

theorem pixelAt_flipPixel (fb : Framebuffer) (q r : Pixel) :
    pixelAt (flipPixel fb q) r = (pixelAt fb r ^^ decide (r = q)) := by
  obtain ⟨qx, qy⟩ := q
  obtain ⟨rx, ry⟩ := r
  by_cases hx : qx = rx
  · subst hx
    by_cases hy : qy = ry
    · subst hy
      simp [pixelAt, flipPixel]
    · have h : qy.val ≠ ry.val := fun e => hy (Fin.ext e)
      simp [pixelAt, flipPixel, h, Ne.symm hy]
  · have h : qx.val ≠ rx.val := fun e => hx (Fin.ext e)
    simp [pixelAt, flipPixel, h, Ne.symm hx]

/-- Two framebuffers with the same pixels are the same. -/
theorem Framebuffer.ext {fb fb' : Framebuffer} (h : ∀ q, pixelAt fb q = pixelAt fb' q) : fb = fb' := by
  apply Vector.ext
  intro x hx
  apply Vector.ext
  intro y hy
  exact h (⟨x, hx⟩, ⟨y, hy⟩)

/-- After a blit of distinct pixels, each listed pixel is flipped and no other. -/
theorem blit_pixel (qs : List Pixel) (hq : qs.Nodup) (fb : Framebuffer) (c : Bool) (r : Pixel) :
    pixelAt (blit qs (fb, c)).1 r = (pixelAt fb r ^^ decide (r ∈ qs)) := by
  induction qs generalizing fb c with
  | nil => simp [blit]
  | cons q qs ih =>
    obtain ⟨hn, hd⟩ := List.nodup_cons.mp hq
    rw [blit, ih hd, pixelAt_flipPixel]
    by_cases h : r = q
    · subst h; simp [hn]
    · simp [h]

/-- The flag of a blit of distinct pixels: one of them was 1 before. -/
theorem blit_collision (qs : List Pixel) (hq : qs.Nodup) (fb : Framebuffer) (c : Bool) :
    (blit qs (fb, c)).2 = (c || qs.any (pixelAt fb)) := by
  induction qs generalizing fb c with
  | nil => simp [blit]
  | cons q qs ih =>
    obtain ⟨hn, hd⟩ := List.nodup_cons.mp hq
    rw [blit, ih hd]
    have h : qs.any (pixelAt (flipPixel fb q)) = qs.any (pixelAt fb) := by
      rw [Bool.eq_iff_iff, List.any_eq_true, List.any_eq_true]
      have hp : ∀ r ∈ qs, pixelAt (flipPixel fb q) r = pixelAt fb r := fun r hr => by
        have hne : r ≠ q := fun e => hn (e ▸ hr)
        rw [pixelAt_flipPixel]; simp [hne]
      exact ⟨fun ⟨r, hr, hb⟩ => ⟨r, hr, hp r hr ▸ hb⟩, fun ⟨r, hr, hb⟩ => ⟨r, hr, (hp r hr).symm ▸ hb⟩⟩
    rw [h, List.any_cons, Bool.or_assoc]

theorem pixelAt_clearScreen (q : Pixel) : pixelAt clearScreen q = false := by
  simp [pixelAt, clearScreen]

/-! ## The keypad -/

theorem mem_pressedKeys (key : Keypad) (k : Fin 16) : k ∈ pressedKeys key ↔ key[k] = true := by
  have h : k ∈ allKeys := by revert k; decide
  simp [pressedKeys, h]

/-- A drawn key is one of the keys it is drawn from (45_input.md R242). -/
theorem drawnKey_mem (s : State) (k : Fin 16) (ks : List (Fin 16)) : drawnKey s k ks ∈ k :: ks := by
  have h : Config.freeChoice s.draws % (ks.length + 1) < (k :: ks).length := by
    simpa using Nat.mod_lt _ (Nat.succ_pos ks.length)
  rw [drawnKey, List.getD_eq_getElem _ _ h]
  exact List.getElem_mem h

end Sys2Proof.Machine
end

