-- ==== Sys2Proof/Laws/Draw.lean ====
section
/-! SUPPORT. The pixels of a sprite, said once: which they are, and that no pixel is drawn twice, so that the order of
drawing does not matter (46_draw.md R260 to R263). -/

namespace Sys2Proof.Machine

/-- Where Place puts a pixel: modulo the screen's sizes, or as it is where it is on the screen (R262). -/
theorem place_eq_some (p : Config.DrawEdgePolicy) (x y : Nat) (q : Pixel) :
    place p x y = some q ↔ match p with
      | .wrap => q.1.val = x % 64 ∧ q.2.val = y % 32
      | .clip => q.1.val = x ∧ q.2.val = y := by
  obtain ⟨qx, qy⟩ := q
  cases p with
  | wrap =>
    simp only [place, Option.some.injEq, Prod.mk.injEq, Fin.ext_iff, Fin.val_ofNat]
    exact ⟨fun h => ⟨h.1.symm, h.2.symm⟩, fun h => ⟨h.1.symm, h.2.symm⟩⟩
  | clip =>
    have := qx.isLt
    have := qy.isLt
    simp only [place]
    split
    · simp only [Option.some.injEq, Prod.mk.injEq, Fin.ext_iff]
      exact ⟨fun h => ⟨h.1.symm, h.2.symm⟩, fun h => ⟨h.1.symm, h.2.symm⟩⟩
    · simp only [reduceCtorEq, false_iff]
      omega

/-- The pixels of one sprite row. -/
theorem mem_rowPixels (p : Config.DrawEdgePolicy) (x0 y : Nat) (row : Byte) (q : Pixel) :
    q ∈ rowPixels p x0 y row ↔ ∃ b, b < 8 ∧ spriteBit row b = true ∧ place p (x0 + b) y = some q := by
  simp only [rowPixels, List.mem_filterMap, List.mem_range]
  refine exists_congr fun b => and_congr_right fun _ => ?_
  cases spriteBit row b <;> simp

/-- The pixels of a sprite. -/
theorem mem_spritePixels (p : Config.DrawEdgePolicy) (m : Memory) (a x0 y0 n : Nat) (q : Pixel) :
    q ∈ spritePixels p m a x0 y0 n ↔
      ∃ r b, r < n ∧ b < 8 ∧ spriteBit (m.read (a + r)) b = true ∧ place p (x0 + b) (y0 + r) = some q := by
  simp only [spritePixels, List.mem_flatMap, List.mem_range, mem_rowPixels]
  exact ⟨fun ⟨r, hr, b, hb, h⟩ => ⟨r, b, hr, hb, h⟩, fun ⟨r, b, hr, hb, h⟩ => ⟨r, hr, b, hb, h⟩⟩

/-- Within the 8 columns and at most 32 rows of a sprite, Place puts no two bits on one pixel. -/
theorem place_inj {p : Config.DrawEdgePolicy} {x0 y0 r r' b b' : Nat} {q : Pixel} (hb : b < 8) (hb' : b' < 8)
    (hr : r < 32) (hr' : r' < 32) (h : place p (x0 + b) (y0 + r) = some q)
    (h' : place p (x0 + b') (y0 + r') = some q) : r = r' ∧ b = b' := by
  rw [place_eq_some] at h h'
  cases p <;> simp only at h h' <;> omega

/-- No pixel of a sprite of at most 32 rows is drawn twice. -/
theorem spritePixels_nodup (p : Config.DrawEdgePolicy) (m : Memory) (a x0 y0 n : Nat) (hn : n ≤ 32) :
    (spritePixels p m a x0 y0 n).Nodup := by
  rw [spritePixels, List.nodup_flatMap]
  constructor
  · intro r hr
    have hr := List.mem_range.mp hr
    rw [rowPixels, List.Nodup, List.pairwise_filterMap]
    refine (List.pairwise_lt_range (n := 8)).imp_of_mem fun {b b'} hb hb' hlt q hq q' hq' e => ?_
    have hb := List.mem_range.mp hb
    have hb' := List.mem_range.mp hb'
    subst e
    split at hq <;> [skip; cases hq]
    split at hq' <;> [skip; cases hq']
    exact absurd (place_inj hb hb' (by omega) (by omega) hq hq').2 (by omega)
  · refine (List.pairwise_lt_range (n := n)).imp_of_mem fun {r r'} hr hr' hlt => ?_
    have hr := List.mem_range.mp hr
    have hr' := List.mem_range.mp hr'
    intro q hq hq'
    obtain ⟨b, hb, -, h⟩ := (mem_rowPixels ..).mp hq
    obtain ⟨b', hb', -, h'⟩ := (mem_rowPixels ..).mp hq'
    exact absurd (place_inj hb hb' (by omega) (by omega) h h').1 (by omega)

/-- The pixels DXYN flips are drawn once each (30_encoding.md R81: n is at most 15). -/
theorem drawnPixels_nodup (p : Config.DrawEdgePolicy) (x y : Reg) (n : Nat) (s : State) (hn : n ≤ 0xF) :
    (drawnPixels p x y n s).Nodup :=
  spritePixels_nodup _ _ _ _ _ _ (by omega)

end Sys2Proof.Machine
end

