-- ==== Sys2Proof/Laws/Engine.lean ====
section
/-! SUPPORT. What a fetch answers and what a step can do, said once; and that this hardware's machine is the machine of
Variants.lean at the default policies. -/

namespace Sys2Proof.Machine

/-- A fetch answers the word at PC, or the first address past 0xFFF (40_engine.md R112). -/
theorem fetch_eq (s : State) :
    fetch s = if s.pc.toNat + 2 ≤ 4096 then .word (opcodeAtPc s)
      else .failed ⟨.outOfBounds, max s.pc.toNat 4096⟩ := by
  have h0 : ¬ (2 : Nat) = 0 := by decide
  rw [fetch, checkRead_eq]
  by_cases h : s.pc.toNat + 2 ≤ 4096
  · simp only [h, or_true, if_true]
  · simp only [h, h0, or_self, if_false]

/-- What a step can do: stay halted, raise a fetch fault, meet an unknown opcode, or run a handler (40_engine.md R110). -/
theorem engineStep_cases {dec : Word → Option Instr} {unknown : Word → State → Result}
    {handler : Instr → State → Result} {s t : State} (h : engineStep dec unknown handler s = .next t) :
    (∃ r, s.fault = some r ∧ t = s) ∨
    (s.fault = none ∧ 0xFFF ≤ s.pc.toNat ∧
      t = s.setFault (some ⟨.outOfBounds, s.pc, none, some (max s.pc.toNat 4096)⟩)) ∨
    (s.fault = none ∧ s.pc.toNat < 0xFFF ∧ dec (opcodeAtPc s) = none ∧ unknown (opcodeAtPc s) s = .next t) ∨
    (∃ i, s.fault = none ∧ s.pc.toNat < 0xFFF ∧ dec (opcodeAtPc s) = some i ∧ handler i s = .next t) := by
  unfold engineStep at h
  cases hf : s.fault with
  | some r =>
    rw [hf] at h
    exact .inl ⟨r, rfl, (Host.Outcome.next.inj h).symm⟩
  | none =>
    rw [hf] at h
    simp only [fetch_eq] at h
    by_cases hp : s.pc.toNat + 2 ≤ 4096
    · simp only [hp, if_true] at h
      cases hd : dec (opcodeAtPc s) with
      | none =>
        rw [hd] at h
        exact .inr (.inr (.inl ⟨rfl, by omega, rfl, h⟩))
      | some i =>
        rw [hd] at h
        exact .inr (.inr (.inr ⟨i, rfl, by omega, rfl, h⟩))
    · simp only [hp, if_false, raiseFault_eq, Host.Outcome.next.injEq] at h
      exact .inr (.inl ⟨rfl, by omega, h.symm⟩)

/-- A step of a running machine whose word decodes is its handler. -/
theorem engineStep_decoded {dec : Word → Option Instr} {unknown : Word → State → Result}
    {handler : Instr → State → Result} {s : State} {i : Instr} (hf : s.fault = none) (hp : s.pc.toNat < 0xFFF)
    (hd : dec (opcodeAtPc s) = some i) : engineStep dec unknown handler s = handler i s := by
  have h : s.pc.toNat + 2 ≤ 4096 := by omega
  simp only [engineStep, hf, fetch_eq, h, if_true, hd]

theorem engineStep_unknown {dec : Word → Option Instr} {unknown : Word → State → Result}
    {handler : Instr → State → Result} {s : State} (hf : s.fault = none) (hp : s.pc.toNat < 0xFFF)
    (hd : dec (opcodeAtPc s) = none) : engineStep dec unknown handler s = unknown (opcodeAtPc s) s := by
  have h : s.pc.toNat + 2 ≤ 4096 := by omega
  simp only [engineStep, hf, fetch_eq, h, if_true, hd]

/-! ## The default policies (00_scope.md R8) -/

@[simp] theorem policy_unknownOpcode : Config.policy.unknownOpcode = .halt := rfl
@[simp] theorem policy_drawEdge : Config.policy.drawEdge = .wrap := rfl
@[simp] theorem policy_fx1eVf : Config.policy.fx1eVf = .unchanged := rfl
@[simp] theorem policy_fontWrite : Config.policy.fontWrite = .fault := rfl
@[simp] theorem policy_skip59 : Config.policy.skip59 = .ignore := rfl
@[simp] theorem policy_keyIndex : Config.policy.keyIndex = .fault := rfl
@[simp] theorem policy_font : Config.policy.font = Config.fontData := rfl

/-- This hardware's handlers are the handlers under the default policies. -/
theorem exec_eq_execUnder (i : Instr) (s : State) : exec i s = execUnder Config.policy i s := by
  cases i <;> rfl

/-- This hardware's step is the step under the default policies. -/
theorem step_eq_stepUnder (s : State) : step s = stepUnder Config.policy s := by
  have h : exec = execUnder Config.policy := funext fun i => funext fun s => exec_eq_execUnder i s
  simp only [step, stepUnder, h]
  rfl

/-! ## Where the next step fetches (log 13) -/

/-- Whatever the state, the opcode placed is the one at PC. -/
theorem opcodeAtPc_placeOpcode (w : Word) (s : State) : opcodeAtPc (placeOpcode w s) = w := by
  have h1 (m : Memory) (a : Nat) : (m.writeBytes a [highByte w, lowByte w]).read a = highByte w := by
    simp [Memory.read_writeBytes]
  have h2 (m : Memory) (a : Nat) : (m.writeBytes a [highByte w, lowByte w]).read (a + 1) = lowByte w := by
    simp [Memory.read_writeBytes]
  simp only [opcodeAtPc, placeOpcode, State.setFault_mem, State.setFault_pc, State.setPc_mem, State.setPc_pc,
    State.setMem_mem, h1, h2, opcodeOf_bytes]

/-- An opcode placed at PC lies where a running machine fetches. -/
theorem placeOpcode_running (w : Word) (s : State) :
    (placeOpcode w s).fault = none ∧ (placeOpcode w s).pc.toNat < 0xFFF := by
  refine ⟨rfl, ?_⟩
  simp only [placeOpcode, State.setFault_pc, State.setPc_pc]
  split
  · assumption
  · decide

/-- Whatever the state, a table word placed where step fetches is what the next step runs. -/
theorem step_withFetchWord (s : State) (nbits w : Nat) (i : Instr) (h : decodeTableWord nbits w = some i) :
    step (s.withFetchWord nbits w) = exec i (s.withFetchWord nbits w) := by
  rw [decodeTableWord_eq] at h
  obtain ⟨hf, hp⟩ := placeOpcode_running (tableWord nbits w) s
  exact engineStep_decoded hf hp (by rw [State.withFetchWord, opcodeAtPc_placeOpcode]; exact h)

/-! ## The font parameter (00_scope.md R8, 20_memory.md R53) -/

/-- After reset under any policies the font region holds the policy's 80 bytes and the rest of memory zeroes. -/
theorem resetUnder_read (p : Config.Policy) (a : Nat) :
    (resetUnder p).mem.read a = if h : a < 80 then p.font[a] else 0 := by
  rw [resetUnder, State.setMem_mem, Memory.read_writeBytes]
  have hl : p.font.toList.length = 80 := Vector.length_toList
  by_cases h : a < 80
  · rw [dif_pos (by rw [hl]; simp only [Config.fontBase]; omega), dif_pos h]
    simp [Config.fontBase]
  · rw [dif_neg (by rw [hl]; simp only [Config.fontBase]; omega), dif_neg h]
    simp [Memory.read, Memory.unlisted, h]

theorem resetUnder_wf (p : Config.Policy) : (resetUnder p).mem.wf = true := by
  rw [resetUnder, State.setMem_mem]
  exact Memory.wf_writeBytes _ (by rw [Vector.length_toList]; decide) rfl

/-- At the default FONT_DATA it is the reset state. -/
theorem resetUnder_policy : resetUnder Config.policy = State.reset := by
  have h : (resetUnder Config.policy).mem = [] :=
    Memory.wf_ext (resetUnder_wf Config.policy) rfl (fun a => by rw [resetUnder_read]; rfl)
  calc resetUnder Config.policy = State.reset.setMem (resetUnder Config.policy).mem := rfl
    _ = State.reset := by rw [h]; rfl

end Sys2Proof.Machine
end

