-- ==== Sys2Proof/Laws/Exec.lean ====
section
/-! SUPPORT. What the meanings that can fault or wait answer, with their checks resolved to plain inequalities: one lemma
per instruction, so that no later proof unfolds a check. The other meanings are one update each. -/

namespace Sys2Proof.Machine

theorem indexed_zero (s : State) : indexed s 0 = s.i.toNat := rfl

/-- 00EE (42_control_flow.md R162). -/
theorem execRet_eq (s : State) :
    execRet s =
      if s.sp.val = 0 then .next (s.setFault (some ⟨.stackUnderflow, s.pc, some (encode .ret), none⟩))
      else .next ((s.setStack s.stack ⟨s.sp.val - 1, by omega⟩).setPc
        (BitVec.ofNat 16 (s.stack[s.sp.val - 1].toNat + 2))) := by
  by_cases h : s.sp.val = 0
  · rw [execRet, pop_empty (Fin.ext h), if_pos h]; rfl
  · rw [execRet, pop_of_pos h, if_neg h]; rfl

/-- 2NNN (42_control_flow.md R164). -/
theorem execCall_eq (addr : Nat) (s : State) :
    execCall addr s =
      if h : s.sp.val < 16 then
        .next ((s.setStack (s.stack.set s.sp.val s.pc h) ⟨s.sp.val + 1, by omega⟩).setPc (BitVec.ofNat 16 addr))
      else .next (s.setFault (some ⟨.stackOverflow, s.pc, some (encode (.call addr)), none⟩)) := by
  by_cases h : s.sp.val < 16
  · rw [execCall, push_of_lt _ h, dif_pos h]; rfl
  · have h16 : s.sp = 16 := Fin.ext (show s.sp.val = 16 by have := s.sp.isLt; omega)
    rw [execCall, push_full _ h16, dif_neg h]; rfl

/-- KeyIndex (45_input.md R243). -/
theorem keyIndex_of_le {p : Config.KeyIndexPolicy} {b : Byte} (h : b.toNat ≤ 0xF) :
    keyIndex p b = some ⟨b.toNat, by omega⟩ := by
  simp only [keyIndex, h, dite_true]

theorem keyIndex_fault {b : Byte} (h : 0xF < b.toNat) : keyIndex .fault b = none := by
  have h' : ¬ b.toNat ≤ 0xF := by omega
  simp only [keyIndex, h', dite_false]

theorem keyIndex_lowNibble (b : Byte) : keyIndex .lowNibble b = some (Fin.ofNat 16 b.toNat) := by
  by_cases h : b.toNat ≤ 0xF
  · rw [keyIndex_of_le h]
    exact congrArg some (Fin.ext (by simp only [Fin.val_ofNat]; omega))
  · simp only [keyIndex, h, dite_false]
    have e : (b &&& 0xF).toNat = b.toNat % 16 := by
      rw [BitVec.toNat_and]
      exact Nat.and_two_pow_sub_one_eq_mod b.toNat 4
    exact congrArg some (Fin.ext (by simp only [Fin.val_ofNat, e]; omega))

/-- FX33 (43_index_memory.md R193). -/
theorem execLdBUnder_eq (p : Config.FontWritePolicy) (x : Reg) (s : State) :
    execLdBUnder p x s =
      if p = .fault ∧ s.i.toNat ≤ 0x4F then
        .next (s.setFault (some ⟨.fontWrite, s.pc, some (encode (.ldB x)), some s.i.toNat⟩))
      else if s.i.toNat + 3 ≤ 4096 then
        .next ((s.setMem (s.mem.writeBytes s.i.toNat (bcdDigits s.v[x]))).setPc (s.pc + 2))
      else .next (s.setFault (some ⟨.outOfBounds, s.pc, some (encode (.ldB x)), some (max s.i.toNat 4096)⟩)) := by
  rw [execLdBUnder, indexed_zero, checkWrite_eq, if_neg (by decide)]
  by_cases hf : p = .fault ∧ s.i.toNat ≤ 0x4F
  · rw [if_pos hf, if_pos hf]; rfl
  · rw [if_neg hf, if_neg hf]
    have hok : p = .allow ∨ 0x4F < s.i.toNat := by
      cases p with
      | allow => exact .inl rfl
      | fault => exact .inr (by by_contra hc; exact hf ⟨rfl, by omega⟩)
    by_cases h : s.i.toNat + 3 ≤ 4096
    · rw [if_pos ⟨h, hok⟩, if_pos h]; rfl
    · rw [if_neg (fun hc => h hc.1), if_neg h]; rfl

/-- FX55 (43_index_memory.md R194). -/
theorem execSaveRegsUnder_eq (p : Config.FontWritePolicy) (x : Reg) (s : State) :
    execSaveRegsUnder p x s =
      if p = .fault ∧ s.i.toNat ≤ 0x4F then
        .next (s.setFault (some ⟨.fontWrite, s.pc, some (encode (.saveRegs x)), some s.i.toNat⟩))
      else if s.i.toNat + (x.val + 1) ≤ 4096 then
        .next ((s.setMem (s.mem.writeBytes s.i.toNat (regsUpTo s.v x))).setPc (s.pc + 2))
      else .next (s.setFault
        (some ⟨.outOfBounds, s.pc, some (encode (.saveRegs x)), some (max s.i.toNat 4096)⟩)) := by
  rw [execSaveRegsUnder, indexed_zero, checkWrite_eq, if_neg (Nat.succ_ne_zero x.val)]
  by_cases hf : p = .fault ∧ s.i.toNat ≤ 0x4F
  · rw [if_pos hf, if_pos hf]; rfl
  · rw [if_neg hf, if_neg hf]
    have hok : p = .allow ∨ 0x4F < s.i.toNat := by
      cases p with
      | allow => exact .inl rfl
      | fault => exact .inr (by by_contra hc; exact hf ⟨rfl, by omega⟩)
    by_cases h : s.i.toNat + (x.val + 1) ≤ 4096
    · rw [if_pos ⟨h, hok⟩, if_pos h]; rfl
    · rw [if_neg (fun hc => h hc.1), if_neg h]; rfl

/-- FX65 (43_index_memory.md R195). -/
theorem execLoadRegs_eq (x : Reg) (s : State) :
    execLoadRegs x s =
      if s.i.toNat + (x.val + 1) ≤ 4096 then
        .next ((s.setRegs (fillRegs (fun k => s.mem.read (s.i.toNat + k)) (x.val + 1) s.v)).setPc (s.pc + 2))
      else .next (s.setFault
        (some ⟨.outOfBounds, s.pc, some (encode (.loadRegs x)), some (max s.i.toNat 4096)⟩)) := by
  rw [execLoadRegs, indexed_zero, checkRead_eq]
  by_cases h : s.i.toNat + (x.val + 1) ≤ 4096
  · rw [if_pos (.inr h), if_pos h]; rfl
  · rw [if_neg (not_or.mpr ⟨Nat.succ_ne_zero _, h⟩), if_neg h]; rfl

/-- DXYN (46_draw.md R260). -/
theorem execDrwUnder_eq (p : Config.DrawEdgePolicy) (x y : Reg) (n : Nat) (s : State) :
    execDrwUnder p x y n s =
      if n = 0 ∨ s.i.toNat + n ≤ 4096 then
        .next (((s.setFb (blit (drawnPixels p x y n s) (s.fb, false)).1).setFlag
          (blit (drawnPixels p x y n s) (s.fb, false)).2).setPc (s.pc + 2))
      else .next (s.setFault
        (some ⟨.outOfBounds, s.pc, some (encode (.drw x y n)), some (max s.i.toNat 4096)⟩)) := by
  rw [execDrwUnder, indexed_zero, checkRead_eq]
  by_cases h : n = 0 ∨ s.i.toNat + n ≤ 4096
  · rw [if_pos h, if_pos h]; rfl
  · rw [if_neg h, if_neg h]; rfl

/-- An instruction raises a fault, changing nothing else, or leaves the Fault record as it is (40_engine.md R116). -/
theorem execUnder_fault_or {p : Config.Policy} {i : Instr} {s t : State} (h : execUnder p i s = .next t) :
    t.fault = s.fault ∨ ∃ k a, t = s.setFault (some ⟨k, s.pc, some (encode i), a⟩) := by
  cases i with
  | ret =>
    simp only [execUnder, execRet_eq] at h
    split at h <;> cases h
    · exact .inr ⟨_, _, rfl⟩
    · exact .inl rfl
  | call a =>
    simp only [execUnder, execCall_eq] at h
    split at h <;> cases h
    · exact .inl rfl
    · exact .inr ⟨_, _, rfl⟩
  | drw x y n =>
    simp only [execUnder, execDrwUnder_eq] at h
    split at h <;> cases h
    · exact .inl rfl
    · exact .inr ⟨_, _, rfl⟩
  | skp x =>
    simp only [execUnder, execSkpUnder] at h
    split at h <;> cases h
    · exact .inr ⟨_, _, rfl⟩
    · exact .inl rfl
  | sknp x =>
    simp only [execUnder, execSknpUnder] at h
    split at h <;> cases h
    · exact .inr ⟨_, _, rfl⟩
    · exact .inl rfl
  | ldVxK x =>
    simp only [execUnder, execLdVxK] at h
    split at h <;> cases h <;> exact .inl rfl
  | addI x =>
    simp only [execUnder, execAddIUnder] at h
    split at h <;> cases h <;> exact .inl rfl
  | ldB x =>
    simp only [execUnder, execLdBUnder_eq] at h
    split at h
    · cases h; exact .inr ⟨_, _, rfl⟩
    · split at h <;> cases h
      · exact .inl rfl
      · exact .inr ⟨_, _, rfl⟩
  | saveRegs x =>
    simp only [execUnder, execSaveRegsUnder_eq] at h
    split at h
    · cases h; exact .inr ⟨_, _, rfl⟩
    · split at h <;> cases h
      · exact .inl rfl
      · exact .inr ⟨_, _, rfl⟩
  | loadRegs x =>
    simp only [execUnder, execLoadRegs_eq] at h
    split at h <;> cases h
    · exact .inl rfl
    · exact .inr ⟨_, _, rfl⟩
  | _ => cases h; exact .inl rfl

end Sys2Proof.Machine
end

