-- ==== Sys2Proof/Laws/PerInstr.lean ====
section
/-! SUPPORT. For every instruction: its word lies in its row of 30_encoding.md R84's table, under both values of
SKIP59_LOW_NIBBLE. One lemma per constructor. -/

namespace Sys2Proof

theorem and_F000 (w : Word) : (w &&& 0xF000).toNat = w.toNat / 4096 * 4096 := by
  have h : w &&& (0xF000 : Word) = (w >>> 12) <<< 12 := by
    ext k hk
    simp only [BitVec.getElem_and, BitVec.getElem_shiftLeft]
    interval_cases k <;> simp [BitVec.getLsbD_eq_getElem]
  have := w.isLt
  rw [h]
  simp only [BitVec.toNat_shiftLeft, BitVec.toNat_ushiftRight, Nat.shiftRight_eq_div_pow, Nat.shiftLeft_eq]
  omega

theorem and_00FF (w : Word) : (w &&& 0x00FF).toNat = w.toNat % 256 := by
  rw [BitVec.toNat_and]
  exact Nat.and_two_pow_sub_one_eq_mod w.toNat 8

theorem and_000F (w : Word) : (w &&& 0x000F).toNat = w.toNat % 16 := by
  rw [BitVec.toNat_and]
  exact Nat.and_two_pow_sub_one_eq_mod w.toNat 4

/-- A mask of two disjoint parts keeps the sum of what each keeps. -/
theorem and_F0FF (w : Word) : (w &&& 0xF0FF).toNat = w.toNat / 4096 * 4096 + w.toNat % 256 := by
  have h : w &&& 0xF0FF = (w &&& 0xF000) + (w &&& 0x00FF) := by
    rw [BitVec.add_eq_or_of_and_eq_zero]
    · rw [show (0xF0FF : Word) = 0xF000 ||| 0x00FF from rfl, BitVec.and_or_distrib_left]
    · rw [BitVec.and_assoc, BitVec.and_comm 0xF000, BitVec.and_assoc]
      simp
  have := w.isLt
  rw [h, BitVec.toNat_add, and_F000, and_00FF]
  omega

theorem and_F00F (w : Word) : (w &&& 0xF00F).toNat = w.toNat / 4096 * 4096 + w.toNat % 16 := by
  have h : w &&& 0xF00F = (w &&& 0xF000) + (w &&& 0x000F) := by
    rw [BitVec.add_eq_or_of_and_eq_zero]
    · rw [show (0xF00F : Word) = 0xF000 ||| 0x000F from rfl, BitVec.and_or_distrib_left]
    · rw [BitVec.and_assoc, BitVec.and_comm 0xF000, BitVec.and_assoc]
      simp
  have := w.isLt
  rw [h, BitVec.toNat_add, and_F000, and_000F]
  omega

theorem encAddr_row {family addr : Nat} (hf : family < 16) (ha : addr ≤ 0xFFF) :
    encAddr family addr &&& 0xF000 = BitVec.ofNat 16 (family * 4096) := by
  apply BitVec.eq_of_toNat_eq
  rw [and_F000, encAddr_toNat hf ha, BitVec.toNat_ofNat]
  omega

theorem encXNN_row {family nn : Nat} (x : Reg) (hf : family < 16) (hn : nn ≤ 0xFF) :
    encXNN family x nn &&& 0xF000 = BitVec.ofNat 16 (family * 4096) := by
  have := x.isLt
  apply BitVec.eq_of_toNat_eq
  rw [and_F000, encXNN_toNat x hf hn, BitVec.toNat_ofNat]
  omega

theorem encXNN_lowRow {family nn : Nat} (x : Reg) (hf : family < 16) (hn : nn ≤ 0xFF) :
    encXNN family x nn &&& 0xF0FF = BitVec.ofNat 16 (family * 4096 + nn) := by
  have := x.isLt
  apply BitVec.eq_of_toNat_eq
  rw [and_F0FF, encXNN_toNat x hf hn, BitVec.toNat_ofNat]
  omega

theorem encXYN_row {family n : Nat} (x y : Reg) (hf : family < 16) (hn : n ≤ 0xF) :
    encXYN family x y n &&& 0xF000 = BitVec.ofNat 16 (family * 4096) := by
  have := x.isLt
  have := y.isLt
  apply BitVec.eq_of_toNat_eq
  rw [and_F000, encXYN_toNat x y hf hn, BitVec.toNat_ofNat]
  omega

theorem encXYN_lowRow {family n : Nat} (x y : Reg) (hf : family < 16) (hn : n ≤ 0xF) :
    encXYN family x y n &&& 0xF00F = BitVec.ofNat 16 (family * 4096 + n) := by
  have := x.isLt
  have := y.isLt
  apply BitVec.eq_of_toNat_eq
  rw [and_F00F, encXYN_toNat x y hf hn, BitVec.toNat_ofNat]
  omega

/-- The instruction's word, masked, is its row's pattern. -/
def Laws.EncodingInRow.Statement (i : Instr) : Prop :=
  i.wf = true → ∀ p, encode i &&& (rowOf p i).mask = (rowOf p i).pattern

namespace Laws.EncodingInRow

theorem cls : Statement .cls := fun _ p => by cases p <;> decide
theorem ret : Statement .ret := fun _ p => by cases p <;> decide
theorem jp (addr : Nat) : Statement (.jp addr) := fun h _ => encAddr_row (by decide) (of_decide_eq_true h)
theorem call (addr : Nat) : Statement (.call addr) := fun h _ => encAddr_row (by decide) (of_decide_eq_true h)
theorem seImm (x : Reg) (nn : Byte) : Statement (.seImm x nn) := fun _ _ => encXNN_row x (by decide) (Nat.le_of_lt_succ nn.isLt)
theorem sneImm (x : Reg) (nn : Byte) : Statement (.sneImm x nn) := fun _ _ => encXNN_row x (by decide) (Nat.le_of_lt_succ nn.isLt)
theorem seReg (x : Reg) (y : Reg) : Statement (.seReg x y) := fun _ p => by
  cases p
  · exact encXYN_row x y (by decide) (by decide)
  · exact encXYN_lowRow x y (by decide) (by decide)
theorem ldImm (x : Reg) (nn : Byte) : Statement (.ldImm x nn) := fun _ _ => encXNN_row x (by decide) (Nat.le_of_lt_succ nn.isLt)
theorem addImm (x : Reg) (nn : Byte) : Statement (.addImm x nn) := fun _ _ => encXNN_row x (by decide) (Nat.le_of_lt_succ nn.isLt)
theorem ldReg (x : Reg) (y : Reg) : Statement (.ldReg x y) := fun _ _ => encXYN_lowRow x y (by decide) (by decide)
theorem orReg (x : Reg) (y : Reg) : Statement (.orReg x y) := fun _ _ => encXYN_lowRow x y (by decide) (by decide)
theorem andReg (x : Reg) (y : Reg) : Statement (.andReg x y) := fun _ _ => encXYN_lowRow x y (by decide) (by decide)
theorem xorReg (x : Reg) (y : Reg) : Statement (.xorReg x y) := fun _ _ => encXYN_lowRow x y (by decide) (by decide)
theorem addReg (x : Reg) (y : Reg) : Statement (.addReg x y) := fun _ _ => encXYN_lowRow x y (by decide) (by decide)
theorem subReg (x : Reg) (y : Reg) : Statement (.subReg x y) := fun _ _ => encXYN_lowRow x y (by decide) (by decide)
theorem shr (x : Reg) (y : Reg) : Statement (.shr x y) := fun _ _ => encXYN_lowRow x y (by decide) (by decide)
theorem subn (x : Reg) (y : Reg) : Statement (.subn x y) := fun _ _ => encXYN_lowRow x y (by decide) (by decide)
theorem shl (x : Reg) (y : Reg) : Statement (.shl x y) := fun _ _ => encXYN_lowRow x y (by decide) (by decide)
theorem sneReg (x : Reg) (y : Reg) : Statement (.sneReg x y) := fun _ p => by
  cases p
  · exact encXYN_row x y (by decide) (by decide)
  · exact encXYN_lowRow x y (by decide) (by decide)
theorem ldI (addr : Nat) : Statement (.ldI addr) := fun h _ => encAddr_row (by decide) (of_decide_eq_true h)
theorem jpV0 (addr : Nat) : Statement (.jpV0 addr) := fun h _ => encAddr_row (by decide) (of_decide_eq_true h)
theorem rnd (x : Reg) (nn : Byte) : Statement (.rnd x nn) := fun _ _ => encXNN_row x (by decide) (Nat.le_of_lt_succ nn.isLt)
theorem drw (x : Reg) (y : Reg) (n : Nat) : Statement (.drw x y n) := fun h _ => encXYN_row x y (by decide) (of_decide_eq_true h)
theorem skp (x : Reg) : Statement (.skp x) := fun _ _ => encXNN_lowRow x (by decide) (by decide)
theorem sknp (x : Reg) : Statement (.sknp x) := fun _ _ => encXNN_lowRow x (by decide) (by decide)
theorem ldVxDt (x : Reg) : Statement (.ldVxDt x) := fun _ _ => encXNN_lowRow x (by decide) (by decide)
theorem ldVxK (x : Reg) : Statement (.ldVxK x) := fun _ _ => encXNN_lowRow x (by decide) (by decide)
theorem ldDtVx (x : Reg) : Statement (.ldDtVx x) := fun _ _ => encXNN_lowRow x (by decide) (by decide)
theorem ldStVx (x : Reg) : Statement (.ldStVx x) := fun _ _ => encXNN_lowRow x (by decide) (by decide)
theorem addI (x : Reg) : Statement (.addI x) := fun _ _ => encXNN_lowRow x (by decide) (by decide)
theorem ldF (x : Reg) : Statement (.ldF x) := fun _ _ => encXNN_lowRow x (by decide) (by decide)
theorem ldB (x : Reg) : Statement (.ldB x) := fun _ _ => encXNN_lowRow x (by decide) (by decide)
theorem saveRegs (x : Reg) : Statement (.saveRegs x) := fun _ _ => encXNN_lowRow x (by decide) (by decide)
theorem loadRegs (x : Reg) : Statement (.loadRegs x) := fun _ _ => encXNN_lowRow x (by decide) (by decide)

end Laws.EncodingInRow

/-- Every instruction's word lies in its row. -/
theorem encode_in_row (i : Instr) : Laws.EncodingInRow.Statement i := by
  cases i with
  | cls => exact Laws.EncodingInRow.cls
  | ret => exact Laws.EncodingInRow.ret
  | jp addr => exact Laws.EncodingInRow.jp addr
  | call addr => exact Laws.EncodingInRow.call addr
  | seImm x nn => exact Laws.EncodingInRow.seImm x nn
  | sneImm x nn => exact Laws.EncodingInRow.sneImm x nn
  | seReg x y => exact Laws.EncodingInRow.seReg x y
  | ldImm x nn => exact Laws.EncodingInRow.ldImm x nn
  | addImm x nn => exact Laws.EncodingInRow.addImm x nn
  | ldReg x y => exact Laws.EncodingInRow.ldReg x y
  | orReg x y => exact Laws.EncodingInRow.orReg x y
  | andReg x y => exact Laws.EncodingInRow.andReg x y
  | xorReg x y => exact Laws.EncodingInRow.xorReg x y
  | addReg x y => exact Laws.EncodingInRow.addReg x y
  | subReg x y => exact Laws.EncodingInRow.subReg x y
  | shr x y => exact Laws.EncodingInRow.shr x y
  | subn x y => exact Laws.EncodingInRow.subn x y
  | shl x y => exact Laws.EncodingInRow.shl x y
  | sneReg x y => exact Laws.EncodingInRow.sneReg x y
  | ldI addr => exact Laws.EncodingInRow.ldI addr
  | jpV0 addr => exact Laws.EncodingInRow.jpV0 addr
  | rnd x nn => exact Laws.EncodingInRow.rnd x nn
  | drw x y n => exact Laws.EncodingInRow.drw x y n
  | skp x => exact Laws.EncodingInRow.skp x
  | sknp x => exact Laws.EncodingInRow.sknp x
  | ldVxDt x => exact Laws.EncodingInRow.ldVxDt x
  | ldVxK x => exact Laws.EncodingInRow.ldVxK x
  | ldDtVx x => exact Laws.EncodingInRow.ldDtVx x
  | ldStVx x => exact Laws.EncodingInRow.ldStVx x
  | addI x => exact Laws.EncodingInRow.addI x
  | ldF x => exact Laws.EncodingInRow.ldF x
  | ldB x => exact Laws.EncodingInRow.ldB x
  | saveRegs x => exact Laws.EncodingInRow.saveRegs x
  | loadRegs x => exact Laws.EncodingInRow.loadRegs x

end Sys2Proof
end

