-- ==== Sys2Proof/Tests/Slice0.lean ====
section
/-! SUPPORT. The model's own tests: ill-formed terms, words written out from 30_encoding.md, one-step vectors of
95_test_vectors.md (named V-… in the comments), and, for every obligation with hypotheses, a witness that meets them. -/

namespace Sys2Proof.Tests

open Sys2Proof Sys2Proof.Machine

/-! ## Well-formedness (30_encoding.md R82): an ill-formed term for each check -/

theorem test_wfAddr_refuses_13_bits :
    (Instr.jp 0x1000).wf = false ∧ (Instr.call 0x1000).wf = false ∧ (Instr.ldI 0x1000).wf = false ∧
    (Instr.jpV0 0x1000).wf = false ∧ (Instr.jp 0xFFF).wf = true := by decide

theorem test_wfCount_refuses_16_rows : (Instr.drw 0 0 16).wf = false ∧ (Instr.drw 0 0 15).wf = true := by decide

/-! ## Decoding: a word of every row of R84, written out from its encoding -/

theorem test_decode_control :
    decode 0b0000000011100000 = some .cls ∧ decode 0b0000000011101110 = some .ret ∧
    decode 0b0001001000110100 = some (.jp 0x234) ∧ decode 0b0010001000010000 = some (.call 0x210) ∧
    decode 0b0011001000010001 = some (.seImm 2 0x11) ∧ decode 0b0100101100010000 = some (.sneImm 0xB 0x10) ∧
    decode 0b0101000100100011 = some (.seReg 1 2) ∧ decode 0b1001000100100000 = some (.sneReg 1 2) ∧
    decode 0b1011001100000000 = some (.jpV0 0x300) := by decide

theorem test_decode_alu :
    decode 0b0110000000000101 = some (.ldImm 0 5) ∧ decode 0b0111000011110000 = some (.addImm 0 0xF0) ∧
    decode 0b1000010100110000 = some (.ldReg 5 3) ∧ decode 0b1000000100100001 = some (.orReg 1 2) ∧
    decode 0b1000000100100010 = some (.andReg 1 2) ∧ decode 0b1000000100100011 = some (.xorReg 1 2) ∧
    decode 0b1000000100100100 = some (.addReg 1 2) ∧ decode 0b1000001101000101 = some (.subReg 3 4) ∧
    decode 0b1000000100000110 = some (.shr 1 0) ∧ decode 0b1000000100100111 = some (.subn 1 2) ∧
    decode 0b1000000100101110 = some (.shl 1 2) ∧ decode 0b1100001100001111 = some (.rnd 3 0x0F) := by decide

theorem test_decode_index_memory :
    decode 0b1010000100100011 = some (.ldI 0x123) ∧ decode 0b1111001000011110 = some (.addI 2) ∧
    decode 0b1111000000101001 = some (.ldF 0) ∧ decode 0b1111101000110011 = some (.ldB 0xA) ∧
    decode 0b1111001001010101 = some (.saveRegs 2) ∧ decode 0b1111000001100101 = some (.loadRegs 0) := by decide

theorem test_decode_timers_input_draw :
    decode 0b1111010000000111 = some (.ldVxDt 4) ∧ decode 0b1111001100010101 = some (.ldDtVx 3) ∧
    decode 0b1111001100011000 = some (.ldStVx 3) ∧ decode 0b1110000110011110 = some (.skp 1) ∧
    decode 0b1110000110100001 = some (.sknp 1) ∧ decode 0b1111001100001010 = some (.ldVxK 3) ∧
    decode 0b1101000100100101 = some (.drw 1 2 5) := by decide

/-- V-E6 and V-E7, and words of the other holes of the map (30_encoding.md R85 to R90). -/
theorem test_decode_unknown :
    decode 0x0000 = none ∧ decode 0x01E0 = none ∧ decode 0x00E1 = none ∧ decode 0x0FEE = none ∧
    decode 0x0123 = none ∧ decode 0x8008 = none ∧ decode 0x8ABD = none ∧ decode 0x800F = none ∧
    decode 0xE000 = none ∧ decode 0xE19F = none ∧ decode 0xE1A2 = none ∧ decode 0xF0FF = none ∧
    decode 0xF130 = none ∧ decode 0xF166 = none := by decide

theorem test_decode_skip_nibble_under_fault :
    decodeUnder .fault 0x5123 = none ∧ decodeUnder .fault 0x9121 = none ∧
    decodeUnder .fault 0x5120 = some (.seReg 1 2) := by decide

/-- Two bytes a time, the most significant first, whatever follows (R80, R93). -/
theorem test_decodeBytes :
    decodeBytes [0xA1, 0x23, 0x77] = .instr (.ldI 0x123) [0x77] ∧ decodeBytes [0x01, 0x23] = .unknownOpcode 0x0123 ∧
    decodeBytes [0xA1] = .truncated ∧ decodeBytes [] = .truncated := by decide

theorem test_decodeTableWord :
    decodeTableWord 16 0xD125 = some (.drw 1 2 5) ∧ decodeTableWord 16 0x00E1 = none := by decide

/-- Program P2 of 95_test_vectors.md, word for word, and two rows of R84. -/
theorem test_asm :
    [Instr.ldI 0x300, .ldImm 0xA 0x9C, .call 0x210, .loadRegs 2, .ldB 0xA, .ret, .shl 1 0, .shr 1 2].map Instr.asm =
      ["LD I, 0x300", "LD VA, 0x9C", "CALL 0x210", "LD V2, [I]", "LD B, VA", "RET", "SHL V1", "SHR V1, V2"] := by
  decide

/-! ## Small states -/

/-- The state after one step at which a word is fetched. -/
def after (w : Nat) (s : State) : State :=
  match step (s.withFetchWord 16 w) with
  | .next t => t
  | .fault _ | .refused _ => s

/-- The report of that step. -/
def reported (w : Nat) (s : State) : StepReport := stepReport (s.withFetchWord 16 w) (after w s)

/-- Reset, with some registers set. -/
def regs (vs : List (Reg × Byte)) : State := vs.foldl (fun s p => s.setV p.1 p.2) State.reset

/-- Some bytes of memory set. -/
def bytes (s : State) (a : Nat) (bs : List Byte) : State := s.setMem (s.mem.writeBytes a bs)

/-- One pixel flipped. -/
def dot (s : State) (q : Pixel) : State := s.setFb (flipPixel s.fb q)

/-- Some keys pressed. -/
def keys (s : State) (ks : List (Fin 16)) : State := ks.foldl (fun s (k : Fin 16) => s.setKeys (s.key.set k.val true)) s

/-- Some entries pushed. -/
def stacked (s : State) (ws : List Word) : State := ws.foldl (fun s w => ((push w s).getD s)) s

/-- Sixteen entries held. -/
def fullStack : State := stacked State.reset (List.replicate 16 0x300)

/-! ## The step engine -/

/-- S1. -/
theorem test_ldImm : (after 0x6005 State.reset).v[(0 : Reg)] = 5 ∧ (after 0x6005 State.reset).pc = 0x202 ∧
    reported 0x6005 State.reset = .retired := by decide

/-- V-E4 and V-E5. -/
theorem test_unknown_opcode :
    (after 0x0123 State.reset).fault = some ⟨.decodeFault, 0x200, some 0x0123, none⟩ ∧
    (after 0x0123 State.reset).pc = 0x200 ∧
    step (after 0x0123 State.reset) = .next (after 0x0123 State.reset) := by
  refine ⟨by decide, by decide, rfl⟩

/-- V-E1 and V-E2: fetching at the end of memory. -/
theorem test_fetch_past_the_end :
    fetch (State.reset.setPc 0xFFF) = .failed ⟨.outOfBounds, 0x1000⟩ ∧
    fetch (State.reset.setPc 0x1000) = .failed ⟨.outOfBounds, 0x1000⟩ ∧
    fetch (State.reset.setPc 0xFFE) = .word 0 := by decide

/-- V-E3: an odd PC. -/
theorem test_odd_pc :
    (after 0x6007 (State.reset.setPc 0x201)).v[(0 : Reg)] = 7 ∧
    (after 0x6007 (State.reset.setPc 0x201)).pc = 0x203 := by decide

/-! ## Register and ALU (95_test_vectors.md 2.1) -/

/-- V-A2, V-A4. -/
theorem test_addImm :
    (after 0x7001 (regs [(0, 0xFF), (15, 0x55)])).v[(0 : Reg)] = 0 ∧
    (after 0x7001 (regs [(0, 0xFF), (15, 0x55)])).v[(15 : Reg)] = 0x55 ∧
    (after 0x7F01 (regs [(15, 0xFF)])).v[(15 : Reg)] = 0 := by decide

/-- V-A5. -/
theorem test_ldReg : (after 0x8530 (regs [(3, 0x12)])).v[(5 : Reg)] = 0x12 := by decide

/-- V-A6 to V-A8. -/
theorem test_logic :
    (after 0x8121 (regs [(1, 0xF0), (2, 0x0F), (15, 0x77)])).v[(1 : Reg)] = 0xFF ∧
    (after 0x8121 (regs [(1, 0xF0), (2, 0x0F), (15, 0x77)])).v[(15 : Reg)] = 0x77 ∧
    (after 0x8122 (regs [(1, 0xF0), (2, 0x3C)])).v[(1 : Reg)] = 0x30 ∧
    (after 0x8123 (regs [(1, 0xF0), (2, 0x3C)])).v[(1 : Reg)] = 0xCC := by decide

/-- V-A10, V-A13, V-A14: the carry, X = F, Y = F. -/
theorem test_addReg :
    (after 0x8124 (regs [(1, 0xFF), (2, 0xFF)])).v[(1 : Reg)] = 0xFE ∧
    (after 0x8124 (regs [(1, 0xFF), (2, 0xFF)])).v[(15 : Reg)] = 1 ∧
    (after 0x8F14 (regs [(15, 0x80), (1, 0x90)])).v[(15 : Reg)] = 1 ∧
    (after 0x80F4 (regs [(0, 0x10), (15, 0x05)])).v[(0 : Reg)] = 0x15 ∧
    (after 0x80F4 (regs [(0, 0x10), (15, 0x05)])).v[(15 : Reg)] = 0 := by decide

/-- V-A16 to V-A18. -/
theorem test_subReg :
    (after 0x8345 (regs [(3, 7), (4, 7)])).v[(15 : Reg)] = 1 ∧ (after 0x8345 (regs [(4, 1)])).v[(3 : Reg)] = 0xFF ∧
    (after 0x8345 (regs [(4, 1)])).v[(15 : Reg)] = 0 ∧
    (after 0x8F15 (regs [(15, 3), (1, 5)])).v[(15 : Reg)] = 0 := by decide

/-- V-A23, V-A24. -/
theorem test_shr :
    (after 0x8126 (regs [(1, 4), (2, 0xFF)])).v[(1 : Reg)] = 2 ∧
    (after 0x8126 (regs [(1, 4), (2, 0xFF)])).v[(15 : Reg)] = 0 ∧
    (after 0x8F06 (regs [(15, 3)])).v[(15 : Reg)] = 1 := by decide

/-- V-A25, V-A26. -/
theorem test_subn :
    (after 0x8127 (regs [(1, 0x0A), (2, 5)])).v[(1 : Reg)] = 0xFB ∧
    (after 0x8127 (regs [(1, 0x0A), (2, 5)])).v[(15 : Reg)] = 0 ∧
    (after 0x8127 (regs [(1, 5), (2, 0x0A)])).v[(15 : Reg)] = 1 := by decide

/-- V-A28, V-A31, V-A32. -/
theorem test_shl :
    (after 0x810E (regs [(1, 0x81)])).v[(1 : Reg)] = 2 ∧ (after 0x810E (regs [(1, 0x81)])).v[(15 : Reg)] = 1 ∧
    (after 0x8F0E (regs [(15, 0x80)])).v[(15 : Reg)] = 1 ∧
    (after 0x812E (regs [(1, 0x40), (2, 0xFF)])).v[(1 : Reg)] = 0x80 := by decide

/-- V-A34: any draw AND 0 is 0. -/
theorem test_rnd : (after 0xC300 (regs [(3, 0xFF)])).v[(3 : Reg)] = 0 := by
  change Config.freeByte 0 &&& 0 = 0
  simp

/-! ## Control flow (95_test_vectors.md 2.2) -/

/-- V-B1. -/
theorem test_cls : pixelAt (after 0x00E0 (dot State.reset (63, 31))).fb (63, 31) = false := by decide

/-- V-B2, V-B3. -/
theorem test_ret :
    (after 0x00EE (stacked State.reset [0x204])).pc = 0x206 ∧ (after 0x00EE (stacked State.reset [0x204])).sp = 0 ∧
    (after 0x00EE State.reset).fault = some ⟨.stackUnderflow, 0x200, some 0x00EE, none⟩ := by decide

/-- V-B4. -/
theorem test_jp : (after 0x1234 State.reset).pc = 0x234 := by decide

/-- V-B7, V-B8. -/
theorem test_call :
    (after 0x2210 (State.reset.setPc 0x204)).stack[(0 : Fin 16)] = 0x204 ∧
    (after 0x2210 (State.reset.setPc 0x204)).pc = 0x210 ∧
    (after 0x2210 fullStack).fault = some ⟨.stackOverflow, 0x200, some 0x2210, none⟩ ∧
    (after 0x2210 fullStack).sp = 16 := by decide

/-- V-B10 to V-B13. -/
theorem test_skip_immediate :
    (after 0x3210 (regs [(2, 0x10)])).pc = 0x204 ∧ (after 0x3211 (regs [(2, 0x10)])).pc = 0x202 ∧
    (after 0x4211 (regs [(2, 0x10)])).pc = 0x204 ∧ (after 0x4210 (regs [(2, 0x10)])).pc = 0x202 := by decide

/-- V-B15 to V-B18. -/
theorem test_skip_register :
    (after 0x5010 (regs [(0, 5), (1, 6)])).pc = 0x202 ∧ (after 0x5123 (regs [(1, 7), (2, 7)])).pc = 0x204 ∧
    (after 0x9010 (regs [(0, 1), (1, 2)])).pc = 0x204 ∧ (after 0x9110 State.reset).pc = 0x202 := by decide

/-- V-B21. -/
theorem test_jpV0 : (after 0xBFFF (regs [(0, 0xFF)])).pc = 0x10FE := by decide

/-! ## Index and memory (95_test_vectors.md 2.3) -/

/-- V-C1. -/
theorem test_ldI : (after 0xA123 State.reset).i = 0x123 := by decide

/-- V-C3, V-C4. -/
theorem test_addI :
    (after 0xF01E ((regs [(0, 1)]).setI 0xFFF)).i = 0x1000 ∧
    (after 0xF01E ((regs [(0, 1)]).setI 0xFFF)).v[(15 : Reg)] = 0 ∧
    (after 0xF01E ((regs [(0, 1)]).setI 0xFFFF)).i = 0 := by decide

/-- V-C8 and S2. -/
theorem test_ldF :
    (after 0xF029 (regs [(0, 0x1B)])).i = 0x037 ∧ (after 0xF029 (regs [(0, 2)])).i = 0x00A := by decide

/-- V-C10. -/
theorem test_ldB :
    [0x300, 0x301, 0x302].map (after 0xFA33 ((regs [(10, 156)]).setI 0x300)).mem.read = [1, 5, 6] := by decide

/-- V-C15, V-C16. -/
theorem test_ldB_faults :
    (after 0xFA33 ((regs [(10, 1)]).setI 0xFFE)).fault = some ⟨.outOfBounds, 0x200, some 0xFA33, some 0x1000⟩ ∧
    (after 0xFA33 ((regs [(10, 1)]).setI 0x04E)).fault = some ⟨.fontWrite, 0x200, some 0xFA33, some 0x04E⟩ := by
  decide

/-- V-C19. -/
theorem test_saveRegs :
    [0x400, 0x401, 0x402, 0x403].map
      (after 0xF255 ((regs [(0, 1), (1, 2), (2, 3), (3, 4)]).setI 0x400)).mem.read = [1, 2, 3, 0] ∧
    (after 0xF255 ((regs [(0, 1), (1, 2), (2, 3), (3, 4)]).setI 0x400)).i = 0x400 := by decide

/-- V-C18. -/
theorem test_saveRegs_faults :
    (after 0xFF55 (State.reset.setI 0xFF1)).fault = some ⟨.outOfBounds, 0x200, some 0xFF55, some 0x1000⟩ := by decide

/-- V-C21, V-C22. -/
theorem test_loadRegs :
    (after 0xF065 State.reset).v[(0 : Reg)] = 0xF0 ∧
    (after 0xF065 (State.reset.setI 0x1000)).fault = some ⟨.outOfBounds, 0x200, some 0xF065, some 0x1000⟩ := by
  decide

/-! ## Timers (95_test_vectors.md 2.4) -/

/-- V-T1 to V-T3. -/
theorem test_timers :
    (after 0xF315 (regs [(3, 0x3C)])).dt = 0x3C ∧ soundOn (after 0xF318 (regs [(3, 2)])) = true ∧
    (after 0xF407 (State.reset.setDt 7)).v[(4 : Reg)] = 7 ∧ (after 0xF407 (State.reset.setDt 7)).dt = 7 := by decide

/-- V-T4, V-T5. -/
theorem test_tick :
    (tick (State.reset.setDt 1)).dt = 0 ∧ (tick (State.reset.setDt 1)).st = 0 ∧
    (tick (tick (tick (State.reset.setSt 2)))).st = 0 ∧ soundOn (tick (State.reset.setSt 2)) = true := by decide

/-! ## Input (95_test_vectors.md 2.5) -/

/-- V-K1, V-K2, V-K5. -/
theorem test_skp :
    (after 0xE19E (keys (regs [(1, 5)]) [5])).pc = 0x204 ∧ (after 0xE19E (regs [(1, 5)])).pc = 0x202 ∧
    (after 0xE19E (regs [(1, 0x10)])).fault = some ⟨.keyIndexOutOfRange, 0x200, some 0xE19E, none⟩ := by decide

/-- V-K3, V-K4. -/
theorem test_sknp :
    (after 0xE1A1 (keys (regs [(1, 5)]) [5])).pc = 0x202 ∧ (after 0xE1A1 (regs [(1, 5)])).pc = 0x204 := by decide

/-- V-K6, V-K7. -/
theorem test_ldVxK :
    reported 0xF30A State.reset = .waiting ∧ (after 0xF30A State.reset).pc = 0x200 ∧
    (after 0xF30A (keys State.reset [0xB])).v[(3 : Reg)] = 0x0B ∧
    (after 0xF30A (keys State.reset [0xB])).pc = 0x202 := by decide

/-- V-K8: any of the two keys. -/
theorem test_ldVxK_two_keys : (after 0xF30A (keys State.reset [3, 9])).v[(3 : Reg)] ∈ ([3, 9] : List Byte) := by
  have h : ∀ k ∈ ([3, 9] : List (Fin 16)), BitVec.ofNat 8 k.val ∈ ([3, 9] : List Byte) := by decide
  exact h _ (drawnKey_mem ((keys State.reset [3, 9]).withFetchWord 16 0xF30A) 3 [9])

/-! ## Draw (95_test_vectors.md 2.6) -/

/-- V-G12, wrapped. -/
theorem test_drw_wraps :
    ([(60, 0), (63, 0), (1, 0), (3, 0), (0, 0), (59, 0), (4, 0)] : List Pixel).map
      (pixelAt (after 0xD011 (dot (bytes ((regs [(0, 60)]).setI 0x300) 0x300 [0xFF]) (0, 0))).fb) =
        [true, true, true, true, false, false, false] ∧
    (after 0xD011 (dot (bytes ((regs [(0, 60)]).setI 0x300) 0x300 [0xFF]) (0, 0))).v[(15 : Reg)] = 1 := by decide

/-- V-G6, V-G7: no rows; a sprite past the end. -/
theorem test_drw_edges :
    (after 0xD010 ((regs [(15, 1)]).setI 0x1000)).v[(15 : Reg)] = 0 ∧
    (after 0xD012 ((regs [(15, 0x33)]).setI 0xFFF)).fault =
      some ⟨.outOfBounds, 0x200, some 0xD012, some 0x1000⟩ ∧
    (after 0xD012 ((regs [(15, 0x33)]).setI 0xFFF)).v[(15 : Reg)] = 0x33 := by decide

/-! ## Witnesses: states and operands that meet the hypotheses of the obligations, at the boundaries of each clause -/

/-- A state at which a word is fetched. -/
def at' (w : Nat) (s : State) : State := s.withFetchWord 16 w

/-- The state after one step. -/
def stepped (s : State) : State :=
  match step s with
  | .next t => t
  | .fault _ | .refused _ => s

/-- The state after one instruction. -/
def done (i : Instr) (s : State) : State :=
  match exec i s with
  | .next t => t
  | .fault _ | .refused _ => s

/-- The invariant of a state whose memory lists only bytes above the font. -/
theorem inv_of {s : State} (hm : s.mem.wf = true) (hf : ∀ c ∈ s.mem, 80 ≤ c.1) (hp : s.pc.toNat ≤ 0x10FE)
    (hs : ∀ k : Fin 16, s.stack[k].toNat ≤ 0xFFE) (hr : s.fault = none) : Inv s := by
  refine ⟨hm, fun a h => ?_, hp, hs, fun r e => ?_⟩
  · have hl : ∀ m : Memory, (∀ c ∈ m, 80 ≤ c.1) → m.read a = Memory.unlisted a := by
      intro m
      induction m with
      | nil => intro _; rfl
      | cons c m ih =>
        intro hc
        have hne : ¬ c.1 = a := by have := hc c (List.mem_cons_self ..); omega
        rw [Memory.read, if_neg hne, ih fun d hd => hc d (List.mem_cons_of_mem _ hd)]
    rw [hl s.mem hf, Memory.unlisted, dif_pos h]
  · rw [hr] at e; cases e

theorem witness_ResetStateValues : Memory.read [] 79 = 0x80 ∧ Memory.read [] 80 = 0 := by decide

theorem witness_StepKeepsInvariant :
    Inv (at' 0x7001 (regs [(0, 0xFF)])) ∧
    step (at' 0x7001 (regs [(0, 0xFF)])) = .next (stepped (at' 0x7001 (regs [(0, 0xFF)]))) :=
  ⟨inv_of (by decide) (by decide) (by decide) (by decide) rfl, rfl⟩

theorem witness_TransactionsKeepInvariant :
    Inv (at' 0x7001 State.reset) ∧
    transact (.load [0x60, 0x05]) ⟨at' 0x7001 State.reset, false⟩ =
      .next (⟨bytes (at' 0x7001 State.reset) 0x200 [0x60, 0x05], false⟩, .loaded) :=
  ⟨inv_of (by decide) (by decide) (by decide) (by decide) rfl, rfl⟩

theorem witness_DecodeInvertsEncode : (Instr.jp 0xFFF).wf = true ∧ (Instr.drw 15 15 15).wf = true := by decide

theorem witness_EncodeInvertsDecode :
    decode 0x5AB3 = some (.seReg 0xA 0xB) ∧ decode 0x9ABF = some (.sneReg 0xA 0xB) ∧
    decode 0xFFFF = none ∧ decode 0x1FFF = some (.jp 0xFFF) := by decide

theorem witness_DecodeFollowsOpcodeMap :
    OpcodeRow.mk 0x800E 0xF00F ∈ opcodeRows .fault ∧ rowMatches ⟨0x800E, 0xF00F⟩ 0x8ABE = true ∧
    decodeUnder .fault 0x8ABE = some (.shl 0xA 0xB) ∧ decodeUnder .fault 0x5AB3 = none := by decide

theorem witness_SecondaryDecodeOfFamilies8EF :
    (0x66 : Byte) ∉ ([0x07, 0x0A, 0x15, 0x18, 0x1E, 0x29, 0x33, 0x55, 0x65] : List Byte) ∧
    encXYN 0x8 15 15 0xF = 0x8FFF ∧ encXNN 0xE 15 0x9E = 0xEF9E := by decide

theorem witness_FamilyZeroAndSkipNibble :
    (0x0FFF : Word).toNat < 0x1000 ∧ (0x00E0 : Word).toNat < 0x1000 ∧ encXYN 0x5 15 15 0xF = 0x5FFF := by decide

theorem witness_NextIs (w : Nat) (s : State) (i : Instr) (h : decodeTableWord 16 w = some i) : NextIs i (at' w s) := by
  obtain ⟨hf, hp⟩ := placeOpcode_running (tableWord 16 w) s
  refine ⟨hf, by rw [at', State.withFetchWord]; omega, ?_⟩
  rw [decodeTableWord_eq] at h
  have := opcodeAtPc_placeOpcode (tableWord 16 w) s
  rw [opcodeAtPc, opcodeOf] at this
  rw [at', State.withFetchWord, this, h]

theorem witness_StepRunsDecodedInstruction :
    NextIs (.drw 1 2 15) (at' 0xD12F (State.reset.setPc 0xFFE)) :=
  witness_NextIs _ _ _ (by decide)

theorem witness_HaltedStepChangesNothing :
    (stepped State.reset).fault = some ⟨.decodeFault, 0x200, some 0, none⟩ := by decide

theorem witness_FetchPastTheEndFaults :
    (State.reset.setPc 0x1000).fault = none ∧ 0xFFF < (State.reset.setPc 0x1000).pc.toNat ∧
    (State.reset.setPc 0xFFF).pc.toNat = 0xFFF := by decide

/-- The policies that take the alternative of every parameter. -/
def otherPolicy : Config.Policy where
  unknownOpcode := .nop
  drawEdge := .clip
  fx1eVf := .flagAbove0xFFF
  fontWrite := .allow
  skip59 := .fault
  keyIndex := .lowNibble
  font := Config.fontData

theorem witness_UnknownOpcodeFollowsPolicy :
    (at' 0x5AB3 (State.reset.setPc 0xFFE)).fault = none ∧ (at' 0x5AB3 (State.reset.setPc 0xFFE)).pc.toNat < 0xFFF ∧
    decodeUnder otherPolicy.skip59 (opcodeAtPc (at' 0x5AB3 (State.reset.setPc 0xFFE))) = none ∧
    otherPolicy.unknownOpcode = .nop ∧ Config.policy.unknownOpcode = .halt ∧
    decodeUnder Config.policy.skip59 (opcodeAtPc (at' 0xF0FF (State.reset.setPc 0xFFE))) = none := by decide

theorem witness_FaultedStepChangesOnlyTheRecord :
    stepUnder Config.policy State.reset = .next (stepped State.reset) ∧ State.reset.fault = none ∧
    (stepped State.reset).fault = some ⟨.decodeFault, 0x200, some 0, none⟩ ∧
    (stepped (State.reset.setPc 0xFFF)).fault = some ⟨.outOfBounds, 0xFFF, none, some 0x1000⟩ :=
  ⟨rfl, rfl, by decide, by decide⟩

/-- One state for each kind, and for each way out of bounds. -/
theorem witness_FaultKindsHaveTheirCauses :
    (stepped State.reset).fault = some ⟨.decodeFault, 0x200, some 0, none⟩ ∧
    (stepped (at' 0x2000 fullStack)).fault = some ⟨.stackOverflow, 0x200, some 0x2000, none⟩ ∧
    (stepped (at' 0x00EE State.reset)).fault = some ⟨.stackUnderflow, 0x200, some 0x00EE, none⟩ ∧
    (stepped (at' 0xE1A1 (regs [(1, 16)]))).fault = some ⟨.keyIndexOutOfRange, 0x200, some 0xE1A1, none⟩ ∧
    (stepped (at' 0xF055 (State.reset.setI 0x04F))).fault = some ⟨.fontWrite, 0x200, some 0xF055, some 0x04F⟩ ∧
    (stepped (State.reset.setPc 0x1000)).fault = some ⟨.outOfBounds, 0x1000, none, some 0x1000⟩ ∧
    (stepped (at' 0xD001 (State.reset.setI 0x1000))).fault = some ⟨.outOfBounds, 0x200, some 0xD001, some 0x1000⟩ ∧
    (stepped (at' 0xF033 (State.reset.setI 0xFFE))).fault = some ⟨.outOfBounds, 0x200, some 0xF033, some 0x1000⟩ ∧
    (stepped (at' 0xF155 (State.reset.setI 0xFFF))).fault = some ⟨.outOfBounds, 0x200, some 0xF155, some 0x1000⟩ ∧
    (stepped (at' 0xF065 (State.reset.setI 0x1001))).fault = some ⟨.outOfBounds, 0x200, some 0xF065, some 0x1001⟩ := by
  decide

/-- One step for each report. -/
theorem witness_StepReportsMeanWhatTheySay :
    reported 0x6005 State.reset = .retired ∧ reported 0xF00A State.reset = .waiting ∧
    stepReport State.reset (stepped State.reset) = .faulted ⟨.decodeFault, 0x200, some 0, none⟩ ∧
    stepReport (stepped State.reset) (stepped State.reset) = .halted ⟨.decodeFault, 0x200, some 0, none⟩ := by decide

theorem witness_StepNeverTicks :
    step (at' 0xF115 (regs [(1, 9)])) = .next (stepped (at' 0xF115 (regs [(1, 9)]))) ∧
    (stepped (at' 0xF115 (regs [(1, 9)]))).dt = 9 ∧ (stepped (at' 0xF118 (regs [(1, 9)]))).st = 9 ∧
    (stepped (at' 0x6005 (State.reset.setDt 4))).dt = 4 := ⟨rfl, by decide, by decide, by decide⟩

/-- CLS and JP are none of the instructions that the whole-machine rules exclude. -/
theorem witness_Untouched :
    (∀ x, Instr.jp 0 ≠ .ldVxDt x) ∧ (∀ x, Instr.jp 0 ≠ .ldDtVx x) ∧ (∀ x, Instr.jp 0 ≠ .ldStVx x) ∧
    (∀ a, Instr.cls ≠ .call a) ∧ Instr.cls ≠ .ret ∧ (∀ x, Instr.jp 0 ≠ .skp x) ∧ (∀ x, Instr.jp 0 ≠ .sknp x) ∧
    (∀ x, Instr.jp 0 ≠ .ldVxK x) ∧ Instr.jp 0 ≠ .cls ∧ (∀ x y n, Instr.jp 0 ≠ .drw x y n) ∧
    (∀ a, Instr.jp 0 ≠ .ldI a) ∧ (∀ x, Instr.jp 0 ≠ .addI x) ∧ (∀ x, Instr.jp 0 ≠ .ldF x) ∧
    (∀ x, Instr.jp 0 ≠ .ldB x) ∧ (∀ x, Instr.jp 0 ≠ .saveRegs x) ∧ ∀ x, Instr.jp 0 ≠ .loadRegs x := by
  refine ⟨?_, ?_, ?_, ?_, ?_, ?_, ?_, ?_, ?_, ?_, ?_, ?_, ?_, ?_, ?_, ?_⟩ <;> intros <;> simp

theorem witness_KeypadIsReadOnlyToPrograms :
    step (at' 0xF30A (keys State.reset [15])) = .next (stepped (at' 0xF30A (keys State.reset [15]))) ∧
    (stepped (at' 0xF30A (keys State.reset [15]))).key[(15 : Fin 16)] = true := ⟨rfl, by decide⟩

theorem witness_FlagRegisterChangesOnlyWhereDocumented :
    (done (.addReg 1 2) (regs [(1, 255), (2, 1)])).v[(15 : Reg)] ≠ (regs [(1, 255), (2, 1)]).v[(15 : Reg)] ∧
    (done (.loadRegs 15) (State.reset.setI 0)).v[(15 : Reg)] ≠ State.reset.v[(15 : Reg)] := by decide

theorem witness_MemoryChangesOnlyByStores :
    (stepped (at' 0xF133 ((regs [(1, 255)]).setI 0x050))).mem.read 0x050 ≠
      (at' 0xF133 ((regs [(1, 255)]).setI 0x050)).mem.read 0x050 ∧
    (stepped (at' 0xF155 ((regs [(1, 255)]).setI 0xFFE))).mem.read 0xFFF ≠
      (at' 0xF155 ((regs [(1, 255)]).setI 0xFFE)).mem.read 0xFFF := by decide

/-- Two cells differ above SP, and the step is a call that writes one of them, or a return. -/
theorem witness_PoppedStackCellsAreNeverSeen :
    (∀ j : Fin 16, j.val < (stacked State.reset [0x204]).sp.val →
      (fullStack.stack.set 0 0x204)[j] = (stacked State.reset [0x204]).stack[j]) ∧
    step (at' 0x2300 (stacked State.reset [0x204])) = .next (stepped (at' 0x2300 (stacked State.reset [0x204]))) ∧
    step (at' 0x00EE (stacked State.reset [0x204])) = .next (stepped (at' 0x00EE (stacked State.reset [0x204]))) :=
  ⟨by decide, rfl, rfl⟩

theorem witness_DrawsAreTakenOnlyWhereTheRulesSay :
    (stepped (at' 0xC300 State.reset)).draws = 1 ∧ (stepped (at' 0xF30A (keys State.reset [3, 9]))).draws = 1 ∧
    (stepped (at' 0xF30A (keys State.reset [3]))).draws = 0 := ⟨rfl, rfl, rfl⟩

/-- The highest address, the highest PC of a fetched instruction, and a PC that a jump targets itself. -/
theorem witness_JumpsAndSkips :
    0xFFF ≤ 0xFFF ∧ (State.reset.setPc 0xFFE).pc.toNat ≤ 0xFFE ∧ (State.reset.setPc 0xFFF).pc.toNat = 0xFFF := by decide

theorem witness_CallPushesItsOwnAddress :
    (stacked State.reset (List.replicate 15 0x300)).sp.val = 15 ∧ fullStack.sp.val = 16 := by decide

/-- The highest and the lowest entry held, the highest value popped in a run, and an empty stack. -/
theorem witness_ReturnGoesPastTheCall :
    (stacked State.reset (List.replicate 16 0xFFE)).sp.val = (15 : Fin 16).val + 1 ∧
    (stacked State.reset (List.replicate 16 0xFFE)).stack[(15 : Fin 16)].toNat ≤ 0xFFE ∧
    (stacked State.reset [0xFFE]).sp.val = (0 : Fin 16).val + 1 ∧
    (stacked State.reset [0xFFE]).stack[(0 : Fin 16)].toNat ≤ 0xFFE ∧ State.reset.sp.val = 0 := by decide

theorem witness_AddToIndexUnderEachPolicy :
    Config.policy.fx1eVf = .unchanged ∧ otherPolicy.fx1eVf = .flagAbove0xFFF := by decide

theorem witness_GlyphAddressPointsAtItsRows : Inv (State.reset.setPc 0x10FE) :=
  inv_of rfl (by simp [State.reset]) (by decide) (by decide) rfl

/-- I at each end of the writable range, one past it, and at the end of the font region. -/
theorem witness_Stores :
    0x04F < (State.reset.setI 0x050).i.toNat ∧ (State.reset.setI 0x050).i.toNat + 2 ≤ 0xFFF ∧
    (State.reset.setI 0xFFD).i.toNat + 2 ≤ 0xFFF ∧ 0xFFF < (State.reset.setI 0xFFE).i.toNat + 2 ∧
    (State.reset.setI 0x04F).i.toNat ≤ 0x04F ∧ (State.reset.setI 0xFF0).i.toNat + (15 : Reg).val ≤ 0xFFF ∧
    0xFFF < (State.reset.setI 0xFF1).i.toNat + (15 : Reg).val ∧
    0xFFF < (State.reset.setI 0x1000).i.toNat + (0 : Reg).val ∧ otherPolicy.fontWrite = .allow := by decide

theorem witness_StoreIsSeenByTheNextFetch :
    1 ≤ (1 : Reg).val ∧ 0x04F < (State.reset.setI 0x202).i.toNat ∧
    (State.reset.setI 0x202).i.toNat + (1 : Reg).val ≤ 0xFFF ∧
    (State.reset.setI 0x202).i.toNat = (State.reset.setI 0x202).pc.toNat + 2 := by decide

/-- The highest key, the first value past it, and the low nibble of that value. -/
theorem witness_KeySkipsFollowTheKeypad :
    ((regs [(1, 15)]).setPc 0xFFE).pc.toNat ≤ 0xFFE ∧ (regs [(1, 15)]).v[(1 : Reg)].toNat = (15 : Fin 16).val ∧
    0xF < (regs [(1, 16)]).v[(1 : Reg)].toNat ∧ otherPolicy.keyIndex = .lowNibble ∧
    (regs [(1, 16)]).v[(1 : Reg)].toNat % 16 = (0 : Fin 16).val := by decide

/-- No key, two keys, exactly one key. -/
theorem witness_KeyWaitTakesAPressedKey :
    (∀ k : Fin 16, State.reset.key[k] = false) ∧ (∃ k : Fin 16, (keys State.reset [0, 15]).key[k] = true) ∧
    ∀ j : Fin 16, (keys State.reset [15]).key[j] = true ↔ j = 15 := by decide

theorem witness_WaitingEndsAtTheFirstKey :
    Waiting (at' 0xF30A State.reset) ∧ (keys State.reset [15]).key[(15 : Fin 16)] = true :=
  ⟨⟨⟨3, witness_NextIs _ _ _ (by decide)⟩, by decide⟩, by decide⟩

/-- Fifteen rows that end at 0xFFF, no rows past it, and a row past it. -/
theorem witness_Draws :
    (15 ≤ 0xF ∧ (State.reset.setI 0xFF1).i.toNat + 15 ≤ 0x1000) ∧
    (0 = 0 ∨ (State.reset.setI 0x1000).i.toNat + 0 ≤ 0x1000) ∧
    ((1 : Nat) ≠ 0 ∧ 0x1000 < (State.reset.setI 0x1000).i.toNat + 1) ∧ otherPolicy.drawEdge = .clip := by decide

/-- Twice at the right-hand edge, with VF the row register: V[Y] mod 32 is the flag of no collision, 0, again. -/
theorem witness_DrawingTwiceRestoresTheScreen :
    execUnder Config.policy (.drw 0 15 1) ((regs [(0, 60)]).setI 0) =
      .next (done (.drw 0 15 1) ((regs [(0, 60)]).setI 0)) ∧
    execUnder Config.policy (.drw 0 15 1) (done (.drw 0 15 1) ((regs [(0, 60)]).setI 0)) =
      .next (done (.drw 0 15 1) (done (.drw 0 15 1) ((regs [(0, 60)]).setI 0))) ∧
    (done (.drw 0 15 1) ((regs [(0, 60)]).setI 0)).v[(15 : Reg)] = 0 ∧
    (done (.drw 0 15 1) (done (.drw 0 15 1) ((regs [(0, 60)]).setI 0))).v[(15 : Reg)] = 1 :=
  ⟨rfl, rfl, by decide, by decide⟩

/-- The longest program, one byte more, and a LOAD after a STEP. -/
theorem witness_LoadPlacesTheProgramOrRejectsIt :
    Session.fresh.stepped = false ∧ (List.replicate 3584 (0 : Byte)).length ≤ 3584 ∧
    3584 < (List.replicate 3585 (0 : Byte)).length ∧ (Session.mk State.reset true).stepped = true := by
  rw [List.length_replicate, List.length_replicate]
  decide

theorem witness_BootRunsTheFirstWord :
    (List.replicate 3582 (0 : Byte)).length ≤ 3582 ∧ decode (opcodeOf 0x12 0x00) = some (.jp 0x200) := by
  refine ⟨by rw [List.length_replicate], by decide⟩

theorem witness_HaltedUntilReset :
    Halted (stepped State.reset) ∧
    ∀ x ∈ [Transaction.step, .tick, .setKeys State.reset.key, .readFb, .soundOn, .readFault],
      x ≠ .reset ∧ ∀ b, x ≠ .load b := by
  refine ⟨by unfold Halted; decide, by simp⟩

theorem witness_ParkedStaysParked : Parked (at' 0x1200 State.reset) := witness_NextIs _ _ _ (by decide)

end Sys2Proof.Tests
end

section
/-! The timers (10_state.md R30). `retime` changes both timer cells at once, so one case split over the instructions
answers for DT and for ST: overwriting one of them is the change that keeps the other. -/

namespace Sys2Proof.Machine

/-- DT changed by `d` and ST by `e`. -/
def State.retime (d e : Byte → Byte) (s : State) : State := (s.setDt (d s.dt)).setSt (e s.st)

theorem State.setDt_eq_retime (b : Byte) : (·.setDt b) = State.retime (fun _ => b) id := rfl

theorem State.setSt_eq_retime (b : Byte) : (·.setSt b) = State.retime id (fun _ => b) := rfl

section
variable (d e : Byte → Byte) (s : State)

/-- A guarded meaning does not touch the timers where its body does not: the check and the record never read them. -/
theorem guarded_retime {i : Instr} {check : Option AccessFault} {k : State → Result}
    (hk : k (s.retime d e) = mapNext (State.retime d e) (k s)) :
    guarded i check k (s.retime d e) = mapNext (State.retime d e) (guarded i check k s) := by
  cases check with
  | none => exact hk
  | some f => rfl

theorem execDrwUnder_retime (p : Config.DrawEdgePolicy) (x y : Reg) (n : Nat) :
    execDrwUnder p x y n (s.retime d e) = mapNext (State.retime d e) (execDrwUnder p x y n s) :=
  guarded_retime d e s rfl

theorem execLdBUnder_retime (p : Config.FontWritePolicy) (x : Reg) :
    execLdBUnder p x (s.retime d e) = mapNext (State.retime d e) (execLdBUnder p x s) := by
  unfold execLdBUnder
  exact guarded_retime d e s rfl

theorem execSaveRegsUnder_retime (p : Config.FontWritePolicy) (x : Reg) :
    execSaveRegsUnder p x (s.retime d e) = mapNext (State.retime d e) (execSaveRegsUnder p x s) := by
  unfold execSaveRegsUnder
  exact guarded_retime d e s rfl

theorem execLoadRegs_retime (x : Reg) :
    execLoadRegs x (s.retime d e) = mapNext (State.retime d e) (execLoadRegs x s) := by
  unfold execLoadRegs
  exact guarded_retime d e s rfl

theorem execRet_retime : execRet (s.retime d e) = mapNext (State.retime d e) (execRet s) := by
  rw [execRet_eq s, apply_ite (mapNext (State.retime d e))]
  exact execRet_eq _

theorem execCall_retime (addr : Nat) :
    execCall addr (s.retime d e) = mapNext (State.retime d e) (execCall addr s) := by
  rw [execCall_eq addr s, apply_dite (mapNext (State.retime d e))]
  exact execCall_eq addr _

theorem execSkpUnder_retime (p : Config.KeyIndexPolicy) (x : Reg) :
    execSkpUnder p x (s.retime d e) = mapNext (State.retime d e) (execSkpUnder p x s) := by
  have hv : (s.retime d e).getV x = s.getV x := rfl
  rw [execSkpUnder, execSkpUnder, hv]
  cases keyIndex p (s.getV x) <;> rfl

theorem execSknpUnder_retime (p : Config.KeyIndexPolicy) (x : Reg) :
    execSknpUnder p x (s.retime d e) = mapNext (State.retime d e) (execSknpUnder p x s) := by
  have hv : (s.retime d e).getV x = s.getV x := rfl
  rw [execSknpUnder, execSknpUnder, hv]
  cases keyIndex p (s.getV x) <;> rfl

/-- FX0A: its three cases turn on the keypad alone. -/
theorem execLdVxK_retime (x : Reg) :
    execLdVxK x (s.retime d e) = mapNext (State.retime d e) (execLdVxK x s) := by
  have hkey : (s.retime d e).key = s.key := rfl
  rw [execLdVxK, execLdVxK, hkey]
  match pressedKeys s.key with
  | [] => rfl
  | [_] => rfl
  | _ :: _ :: _ => rfl

end

/-- Every instruction but FX07, FX15 and FX18 touches neither timer (R30). -/
theorem untouched_retime (d e : Byte → Byte) {i : Instr} (h07 : ∀ x, i ≠ .ldVxDt x) (h15 : ∀ x, i ≠ .ldDtVx x)
    (h18 : ∀ x, i ≠ .ldStVx x) : Untouched (State.retime d e) i := by
  intro s
  cases i with
  | ldVxDt x => exact absurd rfl (h07 x)
  | ldDtVx x => exact absurd rfl (h15 x)
  | ldStVx x => exact absurd rfl (h18 x)
  | ret => exact execRet_retime d e s
  | call addr => exact execCall_retime d e s addr
  | skp x => exact execSkpUnder_retime d e s _ x
  | sknp x => exact execSknpUnder_retime d e s _ x
  | ldVxK x => exact execLdVxK_retime d e s x
  | drw x y n => exact execDrwUnder_retime d e s _ x y n
  | ldB x => exact execLdBUnder_retime d e s _ x
  | saveRegs x => exact execSaveRegsUnder_retime d e s _ x
  | loadRegs x => exact execLoadRegs_retime d e s x
  | _ => rfl

/-- DT: beyond the instructions `untouched_retime` speaks of only FX18 is left, and it touches ST alone. -/
theorem untouched_setDt (b : Byte) {i : Instr} (h07 : ∀ x, i ≠ .ldVxDt x) (h15 : ∀ x, i ≠ .ldDtVx x) :
    Untouched (·.setDt b) i := by
  by_cases h18 : ∃ x, i = .ldStVx x
  · obtain ⟨x, rfl⟩ := h18
    exact fun _ => rfl
  · rw [State.setDt_eq_retime]
    exact untouched_retime _ _ h07 h15 (not_exists.mp h18)

/-- ST: FX07 and FX15 are left, and they touch DT alone. -/
theorem untouched_setSt (b : Byte) {i : Instr} (h18 : ∀ x, i ≠ .ldStVx x) : Untouched (·.setSt b) i := by
  by_cases h07 : ∃ x, i = .ldVxDt x
  · obtain ⟨x, rfl⟩ := h07
    exact fun _ => rfl
  · by_cases h15 : ∃ x, i = .ldDtVx x
    · obtain ⟨x, rfl⟩ := h15
      exact fun _ => rfl
    · rw [State.setSt_eq_retime]
      exact untouched_retime _ _ (not_exists.mp h07) (not_exists.mp h15) h18

/-- One tick is the floored subtraction (44_timers.md R223). -/
theorem countDown_toNat (b : Byte) : (countDown b).toNat = b.toNat - 1 := by
  unfold countDown
  split
  · bv_omega
  · omega

theorem soundOn_iff (s : State) : soundOn s = true ↔ s.st ≠ 0 := bne_iff_ne

/-- Settles O20: the two cells are overwritten through `retime`, one case per instruction; the three transfers and the
tick are computed. -/
theorem timersAreTouchedOnlyByTheirInstructions : Obligations.TimersAreTouchedOnlyByTheirInstructions := by
  unfold Obligations.TimersAreTouchedOnlyByTheirInstructions
  refine ⟨fun b _ h07 h15 => untouched_setDt b h07 h15, fun _ _ _ => rfl,
    fun b _ h18 => untouched_setSt b h18, fun _ _ _ => rfl, ?fx07, fun _ _ => ⟨_, rfl, rfl⟩,
    fun _ _ => ⟨_, rfl, rfl⟩, fun s => ⟨countDown_toNat s.dt, countDown_toNat s.st⟩, soundOn_iff⟩
  case fx07 =>
    intro s x
    exact ⟨(s.setV x s.dt).setPc (s.pc + 2), rfl, State.setV_read_same s x s.dt, rfl⟩

end Sys2Proof.Machine
end

section
/-! The secondary decodes of families 8, E and F (30_encoding.md R87, R88, R89): the family nibble hands the word to its
family's decoder, which reads only the low nibble or the low byte and the register fields. -/

namespace Sys2Proof

section
variable {p : Config.Skip59LowNibble} {w : Word}

/-! ## The family selects its decoder (R84) -/

theorem decodeUnder_of_family8 (h : familyOf w = 0x8) : decodeUnder p w = decodeFamily8 w := by
  simp only [decodeUnder, h]

theorem decodeUnder_of_familyE (h : familyOf w = 0xE) : decodeUnder p w = decodeFamilyE w := by
  simp only [decodeUnder, h]

theorem decodeUnder_of_familyF (h : familyOf w = 0xF) : decodeUnder p w = decodeFamilyF w := by
  simp only [decodeUnder, h]

/-! ## What a family's decoder answers -/

/-- R87: the low nibbles of family 8 without an instruction. -/
theorem decodeFamily8_eq_none (h : nOf w ∈ [0x8, 0x9, 0xA, 0xB, 0xC, 0xD, 0xF]) : decodeFamily8 w = none := by
  simp only [List.mem_cons, List.not_mem_nil, or_false] at h
  rcases h with h | h | h | h | h | h | h <;> simp only [decodeFamily8, h]

/-- R88, with the low byte compared as a byte. -/
theorem decodeFamilyE_eq_ite (w : Word) :
    decodeFamilyE w =
      if nnOf w = 0x9E then some (.skp (xOf w)) else if nnOf w = 0xA1 then some (.sknp (xOf w)) else none := by
  unfold decodeFamilyE
  split
  case h_1 h => rw [if_pos (BitVec.eq_of_toNat_eq h)]
  case h_2 h =>
    have hA1 : nnOf w = 0xA1 := BitVec.eq_of_toNat_eq h
    rw [hA1, if_neg (by decide), if_pos rfl]
  case h_3 h9E hA1 =>
    rw [if_neg fun h => h9E (congrArg BitVec.toNat h), if_neg fun h => hA1 (congrArg BitVec.toNat h)]

/-- R89: the low byte of an instruction of family F is one of the nine of the table. -/
theorem nnOf_mem_of_decodeFamilyF_ne_none (h : decodeFamilyF w ≠ none) :
    nnOf w ∈ ([0x07, 0x0A, 0x15, 0x18, 0x1E, 0x29, 0x33, 0x55, 0x65] : List Byte) := by
  unfold decodeFamilyF at h
  split at h
  case h_10 => exact absurd rfl h
  all_goals simp [← BitVec.toNat_inj, *]

end

/-! ## The words of the families -/

section
variable {n : Nat} (x y : Reg)

/-- An encoded word of family 8 is decoded by its low nibble alone. -/
theorem decode_encXYN_family8 (hn : n ≤ 0xF) : decode (encXYN 0x8 x y n) = decodeFamily8 (encXYN 0x8 x y n) :=
  decodeUnder_of_family8 (familyOf_encXYN x y (by decide) hn)

theorem nnOf_encXNN_byte {family : Nat} (hf : family < 16) (nn : Byte) : nnOf (encXNN family x nn.toNat) = nn :=
  BitVec.eq_of_toNat_eq (nnOf_encXNN x hf (Nat.le_of_lt_succ nn.isLt))

theorem decode_encXNN_familyE (nn : Byte) :
    decode (encXNN 0xE x nn.toNat) =
      if nn = 0x9E then some (.skp x) else if nn = 0xA1 then some (.sknp x) else none := by
  have hnn : nn.toNat ≤ 0xFF := Nat.le_of_lt_succ nn.isLt
  rw [decode, decodeUnder_of_familyE (familyOf_encXNN x (by decide) hnn), decodeFamilyE_eq_ite,
    nnOf_encXNN_byte x (by decide), xOf_encXNN x (by decide) hnn]

theorem decode_encXNN_familyF (hn : n ≤ 0xFF) : decode (encXNN 0xF x n) = decodeFamilyF (encXNN 0xF x n) :=
  decodeUnder_of_familyF (familyOf_encXNN x (by decide) hn)

theorem decode_encXNN_familyF_eq_none {nn : Byte}
    (h : nn ∉ ([0x07, 0x0A, 0x15, 0x18, 0x1E, 0x29, 0x33, 0x55, 0x65] : List Byte)) :
    decode (encXNN 0xF x nn.toNat) = none := by
  rw [decode_encXNN_familyF x (Nat.le_of_lt_succ nn.isLt)]
  by_contra hsome
  have hmem := nnOf_mem_of_decodeFamilyF_ne_none hsome
  rw [nnOf_encXNN_byte x (by decide)] at hmem
  exact h hmem

end

/-- Settles O9: each word goes to its family's decoder; for a fixed low nibble or byte that decoder computes, and for the
others the lemmas above say it answers none. -/
theorem secondaryDecodeOfFamilies8EF : Obligations.SecondaryDecodeOfFamilies8EF := by
  unfold Obligations.SecondaryDecodeOfFamilies8EF
  refine ⟨fun x y => ⟨?_, ?_, ?_, ?_, ?_, ?_, ?_, ?_, ?_, ?unknown8⟩, decode_encXNN_familyE, ?familyF,
    fun x _ => decode_encXNN_familyF_eq_none x⟩
  case unknown8 =>
    intro n hmem
    have hn : n ≤ 0xF := (by decide : ∀ n ∈ [0x8, 0x9, 0xA, 0xB, 0xC, 0xD, 0xF], n ≤ 0xF) n hmem
    rw [decode_encXYN_family8 x y hn]
    exact decodeFamily8_eq_none (by rwa [nOf_encXYN x y (by decide) hn])
  case familyF =>
    intro x
    refine ⟨?_, ?_, ?_, ?_, ?_, ?_, ?_, ?_, ?_⟩ <;>
      simp (disch := decide) only [decode_encXNN_familyF, decodeFamilyF, nnOf_encXNN, xOf_encXNN]
  all_goals
    simp (disch := decide) only [decode_encXYN_family8, decodeFamily8, nOf_encXYN, xOf_encXYN, yOf_encXYN]

end Sys2Proof
end

section
/-! The step never ticks (40_engine.md R119). An instruction that does not touch a cell keeps it: overwriting the cell
with the value it holds changes nothing before the instruction, so it changes nothing after. -/

namespace Sys2Proof.Machine

/-- A step writes at most the Fault record, or it is the instruction that is next (40_engine.md R110, R116). -/
theorem step_fault_or_exec {s t : State} (h : step s = .next t) :
    (∃ f, t = s.setFault f) ∨ ∃ i, NextIs i s ∧ exec i s = .next t := by
  rcases engineStep_cases h with ⟨_, _, ht⟩ | ⟨_, _, ht⟩ | ⟨_, _, _, hu⟩ | ⟨i, hf, hpc, hd, he⟩
  case inl => exact .inl ⟨s.fault, ht⟩
  case inr.inl => exact .inl ⟨_, ht⟩
  case inr.inr.inl => exact .inl ⟨_, (Host.Outcome.next.inj hu).symm⟩
  case inr.inr.inr => exact .inr ⟨i, ⟨hf, Nat.succ_le_of_lt hpc, hd⟩, he⟩

/-- What an instruction does not touch it leaves in place: a change that makes no difference before it makes none
after. -/
theorem Untouched.next_eq {f : State → State} {i : Instr} {s t : State} (hu : Untouched f i) (hs : f s = s)
    (h : exec i s = .next t) : f t = t := by
  have hft := hu s
  rw [hs, h] at hft
  exact (Host.Outcome.next.inj hft).symm

/-- Only FX15 writes DT; FX07 reads it (10_state.md R30). -/
theorem exec_keeps_dt {i : Instr} {s t : State} (h15 : ∀ x, i ≠ .ldDtVx x) (h : exec i s = .next t) :
    t.dt = s.dt := by
  by_cases h07 : ∃ x, i = .ldVxDt x
  · obtain ⟨x, rfl⟩ := h07
    cases h
    rfl
  · have hset : t.setDt s.dt = t := (untouched_setDt s.dt (not_exists.mp h07) h15).next_eq rfl h
    rw [← hset, State.setDt_dt]

/-- Only FX18 writes ST (10_state.md R30). -/
theorem exec_keeps_st {i : Instr} {s t : State} (h18 : ∀ x, i ≠ .ldStVx x) (h : exec i s = .next t) :
    t.st = s.st := by
  have hset : t.setSt s.st = t := (untouched_setSt s.st h18).next_eq rfl h
  rw [← hset, State.setSt_st]

theorem exec_dt {i : Instr} {s t : State} (h : exec i s = .next t) :
    t.dt = s.dt ∨ ∃ x : Reg, i = .ldDtVx x ∧ t.dt = s.v[x] := by
  by_cases h15 : ∃ x, i = .ldDtVx x
  · obtain ⟨x, rfl⟩ := h15
    cases h
    exact .inr ⟨x, rfl, rfl⟩
  · exact .inl (exec_keeps_dt (not_exists.mp h15) h)

theorem exec_st {i : Instr} {s t : State} (h : exec i s = .next t) :
    t.st = s.st ∨ ∃ x : Reg, i = .ldStVx x ∧ t.st = s.v[x] := by
  by_cases h18 : ∃ x, i = .ldStVx x
  · obtain ⟨x, rfl⟩ := h18
    cases h
    exact .inr ⟨x, rfl, rfl⟩
  · exact .inl (exec_keeps_st (not_exists.mp h18) h)

/-- Settles O19: a step that runs no instruction writes the Fault record alone; one that does writes a timer only as that
instruction does. -/
theorem stepNeverTicks : Obligations.StepNeverTicks := by
  unfold Obligations.StepNeverTicks
  intro s t h
  rcases step_fault_or_exec h with ⟨_, rfl⟩ | ⟨i, hnext, he⟩
  · exact ⟨.inl rfl, .inl rfl⟩
  · refine ⟨(exec_dt he).imp_right ?dt, (exec_st he).imp_right ?st⟩
    case dt =>
      rintro ⟨x, rfl, hx⟩
      exact ⟨x, hnext, hx⟩
    case st =>
      rintro ⟨x, rfl, hx⟩
      exact ⟨x, hnext, hx⟩

end Sys2Proof.Machine
end

section
/-! What the register and ALU instructions share (41_register_alu.md): each writes V[X], or V[X] and then VF, and advances
(40_engine.md R115). The frame and the register values are said once, for any instruction whose meaning is such a write. -/

namespace Sys2Proof.Machine

/-! ## Frames and completion -/

theorem Frame.refl (may : Cell → Prop) (s : State) : Frame may s s := fun c _ => by cases c <;> rfl

section
variable {may : Cell → Prop} {i : Instr} {s t : State}

theorem Frame.setPc (h : Frame may s t) (w : Word) : Frame may s (t.setPc w) := by
  intro c hc
  cases c <;> exact h _ hc

theorem Frame.setV {x : Reg} (h : Frame may s t) (hx : may (.v x)) (b : Byte) : Frame may s (t.setV x b) := by
  intro c hc
  cases c with
  | v r =>
    have hr : r ≠ x := fun e => hc (e ▸ hx)
    exact (State.setV_read_ne t x r b hr).trans (h _ hc)
  | _ => exact h _ hc

theorem CompletesWithin.imp {post post' : State → Prop} (h : CompletesWithin may i s post)
    (himp : ∀ u, post u → post' u) : CompletesWithin may i s post' := by
  obtain ⟨u, hexec, hpc, hframe, hpost⟩ := h
  exact ⟨u, hexec, hpc, hframe, himp u hpost⟩

/-- A meaning that writes V[X] and advances changes nothing else. -/
theorem completesWithin_setV {x : Reg} {b : Byte} (h : exec i s = advance (s.setV x b)) :
    CompletesWithin (· = .v x) i s (fun u => u.v[x] = b) :=
  ⟨_, h, rfl, ((Frame.refl (· = .v x) s).setV rfl b).setPc _, State.setV_read_same s x b⟩

/-- A meaning that writes V[X], then VF, and advances changes nothing else; where X = F the flag is what stays (10_state.md
R22). -/
theorem completesWithin_setVFlag {x : Reg} {b : Byte} {c : Bool} (h : exec i s = advance (s.setVFlag x b c)) :
    CompletesWithin (fun cell => cell = .v x ∨ cell = .v 15) i s
      (fun u => (x ≠ 15 → u.v[x] = b) ∧ u.v[(15 : Reg)] = flagByte c) := by
  refine ⟨_, h, rfl, (((Frame.refl _ s).setV (.inl rfl) b).setV (.inr rfl) _).setPc _, fun hx => ?result, ?flag⟩
  case result => exact (State.setVFlag_read s x x b c).trans (by rw [if_neg hx, if_pos rfl])
  case flag => exact (State.setVFlag_read s x 15 b c).trans (if_pos rfl)

/-- As the statements say it, in the naturals: what is left to show is the value of the result and of the flag. -/
theorem completesWithin_setVFlag_toNat {x : Reg} {b : Byte} {c : Bool} {result : Nat → Prop} {flag : Nat}
    (h : exec i s = advance (s.setVFlag x b c)) (hresult : result b.toNat) (hflag : (flagByte c).toNat = flag) :
    CompletesWithin (fun cell => cell = .v x ∨ cell = .v 15) i s
      (fun u => (x ≠ 15 → result u.v[x].toNat) ∧ u.v[(15 : Reg)].toNat = flag) := by
  refine (completesWithin_setVFlag h).imp fun u ⟨hres, hfl⟩ => ⟨fun hx => ?_, ?_⟩
  · rwa [hres hx]
  · rwa [hfl]

/-! ## The word of an instruction (30_encoding.md R84) -/

theorem encodedIn_of_decode (hwf : i.wf = true) (h : decode (encode i) = some i) :
    EncodedIn (rowOf .ignore i).pattern (rowOf .ignore i).mask i :=
  ⟨encode_in_row i hwf .ignore, h⟩

end

/-- 6XNN and 7XNN: the family alone selects the instruction, X and NN are read back from their fields. -/
theorem decode_encode_immediates (x : Reg) (nn : Byte) :
    decode (encode (.ldImm x nn)) = some (.ldImm x nn) ∧ decode (encode (.addImm x nn)) = some (.addImm x nn) := by
  have hnn : nn.toNat ≤ 0xFF := Nat.le_of_lt_succ nn.isLt
  constructor <;>
    simp (disch := omega) only [decode, decodeUnder, encode, familyOf_encXNN, xOf_encXNN, nnOf_encXNN_byte]

/-! ## Results and flags in the naturals -/

theorem toNat_sub_eq_emod (a b : Byte) : ((a - b).toNat : Int) = ((a.toNat : Int) - b.toNat) % 256 := by
  bv_omega

theorem toNat_shiftRight_one (a : Byte) : (a >>> 1).toNat = a.toNat / 2 := by
  rw [BitVec.toNat_ushiftRight, Nat.shiftRight_eq_div_pow, Nat.pow_one]

theorem toNat_shiftLeft_one (a : Byte) : (a <<< 1).toNat = a.toNat * 2 % 256 := by
  rw [BitVec.toNat_shiftLeft, Nat.shiftLeft_eq, Nat.pow_one]

theorem flagByte_carryFlag_toNat (a b : Byte) :
    (flagByte (carryFlag a b)).toNat = if a.toNat + b.toNat > 255 then 1 else 0 := by
  simp only [flagByte_toNat, carryFlag, decide_eq_true_eq]

theorem flagByte_notBorrow_toNat (a b : Byte) :
    (flagByte (notBorrow a b)).toNat = if a.toNat ≥ b.toNat then 1 else 0 := by
  simp only [flagByte_toNat, notBorrow, decide_eq_true_eq]

/-- A bit of a byte, as a flag, is the byte divided by the bit's weight, modulo 2. -/
theorem flagByte_getLsbD_toNat (a : Byte) (k : Nat) : (flagByte (a.getLsbD k)).toNat = a.toNat / 2 ^ k % 2 := by
  rw [← Nat.toNat_testBit, BitVec.getLsbD]
  cases a.toNat.testBit k <;> rfl

theorem flagByte_lowBit_toNat (a : Byte) : (flagByte (lowBit a)).toNat = a.toNat % 2 := by
  rw [lowBit, flagByte_getLsbD_toNat, Nat.pow_zero, Nat.div_one]

theorem flagByte_highBit_toNat (a : Byte) : (flagByte (highBit a)).toNat = a.toNat / 128 := by
  have := a.isLt
  rw [highBit, flagByte_getLsbD_toNat]
  omega

/-! ## The instructions -/

/-- Settles O28: each instruction writes V[X] and advances; its word is that of its row, family 8 by O9. -/
theorem plainRegisterInstructionsWriteOneRegister : Obligations.PlainRegisterInstructionsWriteOneRegister := by
  unfold Obligations.PlainRegisterInstructionsWriteOneRegister
  intro s x y nn
  obtain ⟨hldImm, haddImm⟩ := decode_encode_immediates x nn
  obtain ⟨hld, hor, hand, hxor, -⟩ := secondaryDecodeOfFamilies8EF.1 x y
  refine ⟨⟨encodedIn_of_decode rfl hldImm, completesWithin_setV rfl⟩,
    ⟨encodedIn_of_decode rfl haddImm, ?sum⟩,
    ⟨encodedIn_of_decode rfl hld, completesWithin_setV rfl⟩,
    ⟨encodedIn_of_decode rfl hor, completesWithin_setV rfl⟩,
    ⟨encodedIn_of_decode rfl hand, completesWithin_setV rfl⟩,
    ⟨encodedIn_of_decode rfl hxor, completesWithin_setV rfl⟩⟩
  case sum =>
    have hsum : exec (.addImm x nn) s = advance (s.setV x (s.v[x] + nn)) := rfl
    exact (completesWithin_setV hsum).imp fun u hu => by rw [hu, BitVec.toNat_add]

/-- Settles O29: result first, flag last, so the flag is as said for X = F too. -/
theorem sumsAndDifferencesSetFlag : Obligations.SumsAndDifferencesSetFlag := by
  unfold Obligations.SumsAndDifferencesSetFlag
  intro s x y
  obtain ⟨-, -, -, -, hadd, hsub, -, hsubn, -⟩ := secondaryDecodeOfFamilies8EF.1 x y
  refine ⟨⟨encodedIn_of_decode rfl hadd, ?sum⟩, ⟨encodedIn_of_decode rfl hsub, ?difference⟩,
    ⟨encodedIn_of_decode rfl hsubn, ?reversed⟩⟩
  case sum =>
    exact completesWithin_setVFlag_toNat (result := (· = _)) rfl (BitVec.toNat_add ..) (flagByte_carryFlag_toNat ..)
  case difference =>
    exact completesWithin_setVFlag_toNat (result := fun n => (n : Int) = _) rfl (toNat_sub_eq_emod ..)
      (flagByte_notBorrow_toNat ..)
  case reversed =>
    exact completesWithin_setVFlag_toNat (result := fun n => (n : Int) = _) rfl (toNat_sub_eq_emod ..)
      (flagByte_notBorrow_toNat ..)

/-- Settles O30: the meanings do not name Y; the flag is the shifted-out bit, written last. -/
theorem shiftsIgnoreYAndSetFlag : Obligations.ShiftsIgnoreYAndSetFlag := by
  unfold Obligations.ShiftsIgnoreYAndSetFlag
  intro s x y
  obtain ⟨-, -, -, -, -, -, hshr, -, hshl, -⟩ := secondaryDecodeOfFamilies8EF.1 x y
  refine ⟨⟨encodedIn_of_decode rfl hshr, fun _ => rfl, ?right⟩, ⟨encodedIn_of_decode rfl hshl, fun _ => rfl, ?left⟩⟩
  case right =>
    exact completesWithin_setVFlag_toNat (result := (· = _)) rfl (toNat_shiftRight_one _) (flagByte_lowBit_toNat _)
  case left =>
    exact completesWithin_setVFlag_toNat (result := (· = _)) rfl (toNat_shiftLeft_one _) (flagByte_highBit_toNat _)

end Sys2Proof.Machine
end

section
/-! The control-flow instructions (42_control_flow.md). -/

namespace Sys2Proof.Machine

/-- Replacing the framebuffer stays within any frame that may change every pixel. -/
theorem Frame.setFb {may : Cell → Prop} {s t : State} (h : Frame may s t) (hpixel : ∀ q, may (.pixel q))
    (fb : Framebuffer) : Frame may s (t.setFb fb) := by
  intro c hc
  cases c with
  | pixel q => exact absurd (hpixel q) hc
  | _ => exact h _ hc

/-- Settles O32: the meaning replaces the framebuffer by the cleared one and advances. -/
theorem clearScreenZeroesEveryPixel : Obligations.ClearScreenZeroesEveryPixel := by
  unfold Obligations.ClearScreenZeroesEveryPixel
  intro s
  have hdecode : decode (encode .cls) = some .cls := by decide
  have hexec : exec .cls s = .next ((s.setFb clearScreen).setPc (s.pc + 2)) := rfl
  have hframe : Frame (fun c => ∃ q, c = .pixel q) s (s.setFb clearScreen) :=
    (Frame.refl _ s).setFb (fun q => ⟨q, rfl⟩) clearScreen
  exact ⟨rfl, encodedIn_of_decode rfl hdecode, _, hexec, rfl, hframe.setPc _, pixelAt_clearScreen⟩

end Sys2Proof.Machine
end

section
/-! The index register (43_index_memory.md). -/

namespace Sys2Proof.Machine

/-- Writing I stays within any frame that may change I. -/
theorem Frame.setI {may : Cell → Prop} {s t : State} (h : Frame may s t) (hi : may .i) (w : Word) :
    Frame may s (t.setI w) := by
  intro c hc
  cases c with
  | i => exact absurd hi hc
  | _ => exact h _ hc

/-- A meaning that writes I and advances changes nothing else. -/
theorem completesWithin_setI {i : Instr} {s : State} {w : Word} (h : exec i s = advance (s.setI w)) :
    CompletesWithin (· = .i) i s (fun u => u.i = w) :=
  ⟨_, h, rfl, ((Frame.refl (· = .i) s).setI rfl w).setPc _, rfl⟩

/-- ANNN: the family alone selects the instruction, and NNN is read back from its field. -/
theorem decode_encode_ldI {addr : Nat} (haddr : addr ≤ 0xFFF) : decode (encode (.ldI addr)) = some (.ldI addr) := by
  simp (disch := omega) only [decode, decodeUnder, encode, familyOf_encAddr, nnnOf_encAddr]

/-- Settles O40: the meaning writes I and advances, and a 12-bit address fits the 16-bit register. -/
theorem setIndexLoadsTheAddress : Obligations.SetIndexLoadsTheAddress := by
  unfold Obligations.SetIndexLoadsTheAddress
  intro s addr haddr
  have hwf : (Instr.ldI addr).wf = true := decide_eq_true haddr
  have hexec : exec (.ldI addr) s = advance (s.setI (BitVec.ofNat 16 addr)) := rfl
  have hfits : addr < 2 ^ 16 := Nat.lt_of_le_of_lt haddr (by decide)
  refine ⟨encodedIn_of_decode hwf (decode_encode_ldI haddr), (completesWithin_setI hexec).imp fun u hu => ?_⟩
  rw [hu, BitVec.toNat_ofNat, Nat.mod_eq_of_lt hfits]

end Sys2Proof.Machine
end

section
/-! The timer instructions and the tone (44_timers.md). A tick acts on ST as `countDown` alone, so n ticks do as n count-downs
of the byte, and the tone is on as long as they have not brought it to 0. -/

namespace Sys2Proof.Machine

/-! ## Writing a timer -/

section
variable {may : Cell → Prop} {i : Instr} {s t : State} {b : Byte}

/-- Writing DT stays within any frame that may change DT. -/
theorem Frame.setDt (h : Frame may s t) (hdt : may .dt) (b : Byte) : Frame may s (t.setDt b) := by
  intro c hc
  cases c with
  | dt => exact absurd hdt hc
  | _ => exact h _ hc

/-- Writing ST stays within any frame that may change ST. -/
theorem Frame.setSt (h : Frame may s t) (hst : may .st) (b : Byte) : Frame may s (t.setSt b) := by
  intro c hc
  cases c with
  | st => exact absurd hst hc
  | _ => exact h _ hc

/-- A meaning that writes DT and advances changes nothing else. -/
theorem completesWithin_setDt (h : exec i s = advance (s.setDt b)) :
    CompletesWithin (· = .dt) i s (fun u => u.dt = b) :=
  ⟨_, h, rfl, ((Frame.refl (· = .dt) s).setDt rfl b).setPc _, rfl⟩

/-- A meaning that writes ST and advances changes nothing else. -/
theorem completesWithin_setSt (h : exec i s = advance (s.setSt b)) :
    CompletesWithin (· = .st) i s (fun u => u.st = b) :=
  ⟨_, h, rfl, ((Frame.refl (· = .st) s).setSt rfl b).setPc _, rfl⟩

end

/-! ## The tone over several ticks (44_timers.md R223, R224) -/

theorem countDown_iterate_toNat (n : Nat) (b : Byte) : (countDown^[n] b).toNat = b.toNat - n := by
  induction n with
  | zero => rfl
  | succ n ih => rw [Function.iterate_succ_apply', countDown_toNat, ih, Nat.sub_sub]

theorem tick_iterate_st (n : Nat) (s : State) : (tick^[n] s).st = countDown^[n] s.st :=
  have hst : Function.Semiconj State.st tick countDown := fun _ => rfl
  hst.iterate_right n s

/-- The tone lasts as many ticks as ST says. -/
theorem soundOn_tick_iterate_iff (n : Nat) (s : State) : soundOn (tick^[n] s) = true ↔ n < s.st.toNat := by
  rw [soundOn_iff, tick_iterate_st, ne_eq, ← BitVec.toNat_inj, countDown_iterate_toNat]
  exact Nat.sub_ne_zero_iff_lt

/-! ## The instructions -/

/-- Settles O48: each meaning is one write and an advance, its word is of family F by O9; the tone follows from ST being
V[X]. -/
theorem timerInstructionsMoveTheirTimer : Obligations.TimerInstructionsMoveTheirTimer := by
  unfold Obligations.TimerInstructionsMoveTheirTimer
  intro s x
  obtain ⟨-, -, hfamilyF, -⟩ := secondaryDecodeOfFamilies8EF
  obtain ⟨hfx07, -, hfx15, hfx18, -⟩ := hfamilyF x
  refine ⟨⟨encodedIn_of_decode rfl hfx07, completesWithin_setV rfl⟩,
    ⟨encodedIn_of_decode rfl hfx15, completesWithin_setDt rfl⟩,
    ⟨encodedIn_of_decode rfl hfx18, (completesWithin_setSt rfl).imp fun u hst => ⟨hst, fun n => ?tone⟩⟩⟩
  case tone => exact hst ▸ soundOn_tick_iterate_iff n u

end Sys2Proof.Machine
end

section
/-! Encoding and decoding (30_encoding.md sections 3 and 6): a word is put together again from its fields, so decode and
encode undo each other; and the rows of the opcode map are told apart by the bits their masks share. -/

namespace Sys2Proof

/-! ## Every well-formed instruction is decoded from its word -/

theorem nn_le (nn : Byte) : nn.toNat ≤ 0xFF := Nat.le_of_lt_succ nn.isLt

theorem skip59Accepts_iff {p : Config.Skip59LowNibble} {w : Word} :
    skip59Accepts p w = true ↔ p = .ignore ∨ nOf w = 0 := by
  cases p <;> simp [skip59Accepts]

/-- 5XYN and 9XYN under both values of SKIP59_LOW_NIBBLE (R86). -/
theorem decodeUnder_skip59 (p : Config.Skip59LowNibble) (x y : Reg) {n : Nat} (hn : n ≤ 0xF) :
    decodeUnder p (encXYN 0x5 x y n) = (if p = .ignore ∨ n = 0 then some (.seReg x y) else none) ∧
    decodeUnder p (encXYN 0x9 x y n) = (if p = .ignore ∨ n = 0 then some (.sneReg x y) else none) := by
  simp (disch := omega) only [decodeUnder, skip59Accepts_iff, familyOf_encXYN, xOf_encXYN, yOf_encXYN, nOf_encXYN,
    and_self]

/-- Encoding is the inverse of the opcode map (30_encoding.md section 6). -/
theorem decodeUnder_encode (p : Config.Skip59LowNibble) {i : Instr} (hwf : i.wf = true) :
    decodeUnder p (encode i) = some i := by
  cases i with
  | cls | ret => cases p <;> decide
  | jp addr | call addr | ldI addr | jpV0 addr =>
    have haddr : addr ≤ 0xFFF := of_decide_eq_true hwf
    simp (disch := omega) only [decodeUnder, encode, familyOf_encAddr, nnnOf_encAddr]
  | seImm x nn | sneImm x nn | ldImm x nn | addImm x nn | rnd x nn =>
    have hnn := nn_le nn
    simp (disch := omega) only [decodeUnder, encode, familyOf_encXNN, xOf_encXNN, nnOf_encXNN_byte]
  | drw x y n =>
    have hn : n ≤ 0xF := of_decide_eq_true hwf
    simp (disch := omega) only [decodeUnder, encode, familyOf_encXYN, xOf_encXYN, yOf_encXYN, nOf_encXYN]
  | seReg x y => rw [encode, (decodeUnder_skip59 p x y (by decide)).1, if_pos (.inr rfl)]
  | sneReg x y => rw [encode, (decodeUnder_skip59 p x y (by decide)).2, if_pos (.inr rfl)]
  | ldReg x y | orReg x y | andReg x y | xorReg x y | addReg x y | subReg x y | shr x y | subn x y | shl x y =>
    simp (disch := decide) only [decodeUnder, decodeFamily8, encode, familyOf_encXYN, nOf_encXYN, xOf_encXYN,
      yOf_encXYN]
  | skp x | sknp x =>
    simp (disch := decide) only [decodeUnder, decodeFamilyE, encode, familyOf_encXNN, nnOf_encXNN, xOf_encXNN]
  | ldVxDt x | ldVxK x | ldDtVx x | ldStVx x | addI x | ldF x | ldB x | saveRegs x | loadRegs x =>
    simp (disch := decide) only [decodeUnder, decodeFamilyF, encode, familyOf_encXNN, nnOf_encXNN, xOf_encXNN]

/-- Settles O6: the fields of an encoded word are the operands. -/
theorem decodeInvertsEncode : Obligations.DecodeInvertsEncode := by
  unfold Obligations.DecodeInvertsEncode
  exact fun _ p hwf => decodeUnder_encode p hwf

/-! ## A decoded instruction encodes to its word -/

section
variable {w : Word} {family : Nat}

theorem familyOf_lt (w : Word) : familyOf w < 16 := by
  have := w.isLt
  unfold familyOf
  omega

theorem encAddr_nnnOf (h : familyOf w = family) : encAddr family (nnnOf w) = w := by
  have := familyOf_lt w
  have haddr : nnnOf w ≤ 0xFFF := Nat.le_of_lt_succ (Nat.mod_lt _ (by decide))
  apply BitVec.eq_of_toNat_eq
  rw [encAddr_toNat (by omega) haddr, ← h, familyOf, nnnOf]
  omega

theorem nnOf_toNat (w : Word) : (nnOf w).toNat = w.toNat % 256 := by
  rw [nnOf, BitVec.toNat_ofNat]

theorem encXNN_xOf_nnOf (h : familyOf w = family) : encXNN family (xOf w) (nnOf w).toNat = w := by
  have := familyOf_lt w
  apply BitVec.eq_of_toNat_eq
  rw [encXNN_toNat _ (by omega) (nn_le _), nnOf_toNat, ← h, familyOf, xOf, Fin.val_ofNat]
  omega

theorem encXYN_fields_toNat (h : familyOf w = family) {n : Nat} (hn : n ≤ 0xF) :
    (encXYN family (xOf w) (yOf w) n).toNat = w.toNat - w.toNat % 16 + n := by
  have := familyOf_lt w
  rw [encXYN_toNat _ _ (by omega) hn, ← h, familyOf, xOf, yOf, Fin.val_ofNat, Fin.val_ofNat]
  omega

theorem nOf_le (w : Word) : nOf w ≤ 0xF := Nat.le_of_lt_succ (Nat.mod_lt _ (by decide))

theorem encXYN_xOf_yOf_nOf (h : familyOf w = family) : encXYN family (xOf w) (yOf w) (nOf w) = w := by
  apply BitVec.eq_of_toNat_eq
  rw [encXYN_fields_toNat h (nOf_le w), nOf]
  omega

/-- Family 8: the low nibble is the one the instruction's word has (R87). -/
theorem encode_of_decodeFamily8 {i : Instr} (h : familyOf w = 0x8) (hd : decodeFamily8 w = some i) :
    i.wf = true ∧ encode i = w := by
  have hw := encXYN_xOf_yOf_nOf h
  unfold decodeFamily8 at hd
  split at hd <;> cases hd <;> exact ⟨rfl, by simpa only [encode, *] using hw⟩

/-- Family E (R88). -/
theorem encode_of_decodeFamilyE {i : Instr} (h : familyOf w = 0xE) (hd : decodeFamilyE w = some i) :
    i.wf = true ∧ encode i = w := by
  have hw := encXNN_xOf_nnOf h
  unfold decodeFamilyE at hd
  split at hd <;> cases hd <;> exact ⟨rfl, by simpa only [encode, *] using hw⟩

/-- Family F (R89). -/
theorem encode_of_decodeFamilyF {i : Instr} (h : familyOf w = 0xF) (hd : decodeFamilyF w = some i) :
    i.wf = true ∧ encode i = w := by
  have hw := encXNN_xOf_nnOf h
  unfold decodeFamilyF at hd
  split at hd <;> cases hd <;> exact ⟨rfl, by simpa only [encode, *] using hw⟩

/-- Family 0 (R85). -/
theorem encode_of_decodeFamily0 {i : Instr} (hd : decodeFamily0 w = some i) : i.wf = true ∧ encode i = w := by
  unfold decodeFamily0 at hd
  split at hd
  · cases hd; exact ⟨rfl, Eq.symm ‹_›⟩
  · split at hd <;> cases hd
    exact ⟨rfl, Eq.symm ‹_›⟩

end

/-- The words whose low nibble decoding ignores: 5XYN and 9XYN under Ignore (R86). -/
def IgnoresNibble (p : Config.Skip59LowNibble) (w : Word) (i : Instr) : Prop :=
  p = .ignore ∧ ((familyOf w = 5 ∧ i = .seReg (xOf w) (yOf w)) ∨ (familyOf w = 9 ∧ i = .sneReg (xOf w) (yOf w)))

/-- What is decoded is well formed and encodes to its word, unless the word's low nibble was ignored (R94). -/
theorem encode_of_decodeUnder {p : Config.Skip59LowNibble} {w : Word} {i : Instr} (hd : decodeUnder p w = some i) :
    i.wf = true ∧ (encode i = w ∨ IgnoresNibble p w i) := by
  have hn := nOf_le w
  have haddr : wfAddr (nnnOf w) = true := decide_eq_true (Nat.le_of_lt_succ (Nat.mod_lt _ (by decide)))
  unfold decodeUnder at hd
  split at hd
  case h_1 => exact (encode_of_decodeFamily0 hd).imp_right .inl
  case h_2 h | h_3 h | h_11 h | h_12 h => cases hd; exact ⟨haddr, .inl (encAddr_nnnOf h)⟩
  case h_4 h | h_5 h | h_7 h | h_8 h | h_13 h => cases hd; exact ⟨rfl, .inl (encXNN_xOf_nnOf h)⟩
  case h_14 h => cases hd; exact ⟨decide_eq_true hn, .inl (encXYN_xOf_yOf_nOf h)⟩
  case h_9 h => exact (encode_of_decodeFamily8 h hd).imp_right .inl
  case h_15 h => exact (encode_of_decodeFamilyE h hd).imp_right .inl
  case h_16 h => exact (encode_of_decodeFamilyF h hd).imp_right .inl
  case h_17 => cases hd
  case h_6 h =>
    split at hd <;> cases hd
    refine ⟨rfl, (skip59Accepts_iff.mp ‹_›).symm.imp (fun h0 => ?_) fun hp => ⟨hp, .inl ⟨h, rfl⟩⟩⟩
    simpa only [encode, h0] using encXYN_xOf_yOf_nOf h
  case h_10 h =>
    split at hd <;> cases hd
    refine ⟨rfl, (skip59Accepts_iff.mp ‹_›).symm.imp (fun h0 => ?_) fun hp => ⟨hp, .inr ⟨h, rfl⟩⟩⟩
    simpa only [encode, h0] using encXYN_xOf_yOf_nOf h

/-- Settles O7: put together again, the fields are the word, but for an ignored nibble, which is encoded as 0. -/
theorem encodeInvertsDecode : Obligations.EncodeInvertsDecode := by
  unfold Obligations.EncodeInvertsDecode
  intro w i hd
  obtain ⟨hwf, hw⟩ := encode_of_decodeUnder hd
  refine ⟨hwf, hw.imp_right ?_⟩
  rintro ⟨-, ⟨hfam, rfl⟩ | ⟨hfam, rfl⟩⟩
  · exact ⟨.inl hfam, encXYN_fields_toNat hfam (by decide)⟩
  · exact ⟨.inr hfam, encXYN_fields_toNat hfam (by decide)⟩

/-! ## The rows of the opcode map (R84) -/

/-- Rows that share a word agree where both masks look. -/
theorem patterns_agree_of_rowMatches {r r' : OpcodeRow} {w : Word} (h : rowMatches r w = true)
    (h' : rowMatches r' w = true) : r.pattern &&& r'.mask = r'.pattern &&& r.mask := by
  rw [← eq_of_beq h, ← eq_of_beq h', BitVec.and_assoc, BitVec.and_assoc, BitVec.and_comm r.mask]

/-- No two rows agree where both masks look. -/
theorem opcodeRows_disjoint (p : Config.Skip59LowNibble) : ∀ r ∈ opcodeRows p, ∀ r' ∈ opcodeRows p,
    r.pattern &&& r'.mask = r'.pattern &&& r.mask → r = r' := by
  cases p <;> decide

theorem rowOf_mem_opcodeRows (p : Config.Skip59LowNibble) (i : Instr) : rowOf p i ∈ opcodeRows p := by
  cases i <;> simp [rowOf, opcodeRows]

/-- The row of a decoded instruction matches its word: the encoded word lies in the row, and an ignored nibble is
outside the row's mask. -/
theorem rowMatches_rowOf_of_decodeUnder {p : Config.Skip59LowNibble} {w : Word} {i : Instr}
    (hd : decodeUnder p w = some i) : rowMatches (rowOf p i) w = true := by
  obtain ⟨hwf, hw | ⟨rfl, ⟨hfam, rfl⟩ | ⟨hfam, rfl⟩⟩⟩ := encode_of_decodeUnder hd
  · rw [← hw]
    exact beq_iff_eq.mpr (encode_in_row i hwf p)
  all_goals
    refine beq_iff_eq.mpr (BitVec.eq_of_toNat_eq ((and_F000 w).trans ?_))
    rw [← familyOf, hfam]
    rfl

section
variable {w pattern : Word}

/-! What a matching row says of the fields. -/

theorem familyOf_of_rowMatches (h : rowMatches ⟨pattern, 0xF000⟩ w = true) : familyOf w = familyOf pattern := by
  have hw : w &&& 0xF000 = pattern := eq_of_beq h
  rw [← hw, familyOf, familyOf, and_F000]
  omega

theorem nOf_of_rowMatches (h : rowMatches ⟨pattern, 0xF00F⟩ w = true) :
    familyOf w = familyOf pattern ∧ nOf w = nOf pattern := by
  have hw : w &&& 0xF00F = pattern := eq_of_beq h
  rw [← hw, familyOf, familyOf, nOf, nOf, and_F00F]
  omega

theorem nnOf_of_rowMatches (h : rowMatches ⟨pattern, 0xF0FF⟩ w = true) :
    familyOf w = familyOf pattern ∧ (nnOf w).toNat = (nnOf pattern).toNat := by
  have hw : w &&& 0xF0FF = pattern := eq_of_beq h
  rw [← hw, familyOf, familyOf, nnOf_toNat, nnOf_toNat, and_F0FF]
  omega

theorem eq_of_rowMatches (h : rowMatches ⟨pattern, 0xFFFF⟩ w = true) : w = pattern := by
  have hw : w &&& BitVec.allOnes 16 = pattern := eq_of_beq h
  rwa [BitVec.and_allOnes] at hw

end

/-- The rows by their masks: what each asks of a word's fields (R84 to R89). -/
theorem opcodeRows_by_mask (p : Config.Skip59LowNibble) : ∀ r ∈ opcodeRows p,
    (r.mask = 0xFFFF ∧ decodeUnder p r.pattern ≠ none) ∨
    (r.mask = 0xF000 ∧ familyOf r.pattern ∈ [0x1, 0x2, 0x3, 0x4, 0x6, 0x7, 0xA, 0xB, 0xC, 0xD]) ∨
    (r.mask = skip59Mask p ∧ familyOf r.pattern ∈ [0x5, 0x9] ∧ nOf r.pattern = 0) ∨
    (r.mask = 0xF00F ∧ familyOf r.pattern = 0x8 ∧ nOf r.pattern ∈ [0x0, 0x1, 0x2, 0x3, 0x4, 0x5, 0x6, 0x7, 0xE]) ∨
    (r.mask = 0xF0FF ∧ familyOf r.pattern = 0xE ∧ (nnOf r.pattern).toNat ∈ [0x9E, 0xA1]) ∨
    (r.mask = 0xF0FF ∧ familyOf r.pattern = 0xF ∧
      (nnOf r.pattern).toNat ∈ [0x07, 0x0A, 0x15, 0x18, 0x1E, 0x29, 0x33, 0x55, 0x65]) := by
  cases p <;> decide

/-! Where the fields are those of a row, the word is decoded. -/

section
variable {p : Config.Skip59LowNibble} {w : Word}

theorem decodeUnder_ne_none_of_family (h : familyOf w ∈ [0x1, 0x2, 0x3, 0x4, 0x6, 0x7, 0xA, 0xB, 0xC, 0xD]) :
    decodeUnder p w ≠ none := by
  simp only [List.mem_cons, List.not_mem_nil, or_false] at h
  rcases h with h | h | h | h | h | h | h | h | h | h <;> simp [decodeUnder, h]

theorem decodeUnder_ne_none_of_skip59 (h : familyOf w ∈ [0x5, 0x9]) (hn : p = .ignore ∨ nOf w = 0) :
    decodeUnder p w ≠ none := by
  have haccepts := skip59Accepts_iff.mpr hn
  simp only [List.mem_cons, List.not_mem_nil, or_false] at h
  rcases h with h | h <;> simp [decodeUnder, h, haccepts]

theorem decodeFamily8_ne_none (h : nOf w ∈ [0x0, 0x1, 0x2, 0x3, 0x4, 0x5, 0x6, 0x7, 0xE]) : decodeFamily8 w ≠ none := by
  simp only [List.mem_cons, List.not_mem_nil, or_false] at h
  rcases h with h | h | h | h | h | h | h | h | h <;> simp [decodeFamily8, h]

theorem decodeFamilyE_ne_none (h : (nnOf w).toNat ∈ [0x9E, 0xA1]) : decodeFamilyE w ≠ none := by
  simp only [List.mem_cons, List.not_mem_nil, or_false] at h
  rcases h with h | h <;> simp [decodeFamilyE, h]

theorem decodeFamilyF_ne_none (h : (nnOf w).toNat ∈ [0x07, 0x0A, 0x15, 0x18, 0x1E, 0x29, 0x33, 0x55, 0x65]) :
    decodeFamilyF w ≠ none := by
  simp only [List.mem_cons, List.not_mem_nil, or_false] at h
  rcases h with h | h | h | h | h | h | h | h | h <;> simp [decodeFamilyF, h]

/-- A word that matches a row is decoded. -/
theorem decodeUnder_ne_none_of_rowMatches {r : OpcodeRow} (hr : r ∈ opcodeRows p) (h : rowMatches r w = true) :
    decodeUnder p w ≠ none := by
  obtain ⟨pattern, mask⟩ := r
  rcases opcodeRows_by_mask p _ hr with ⟨rfl, hd⟩ | ⟨rfl, hfam⟩ | ⟨rfl, hfam, hn⟩ | ⟨rfl, hfam, hn⟩ | ⟨rfl, hfam, hn⟩ |
    ⟨rfl, hfam, hn⟩
  · exact eq_of_rowMatches h ▸ hd
  · exact decodeUnder_ne_none_of_family (familyOf_of_rowMatches h ▸ hfam)
  · cases p with
    | ignore => exact decodeUnder_ne_none_of_skip59 (familyOf_of_rowMatches h ▸ hfam) (.inl rfl)
    | fault =>
      obtain ⟨hwfam, hwn⟩ := nOf_of_rowMatches h
      exact decodeUnder_ne_none_of_skip59 (hwfam ▸ hfam) (.inr (hwn.trans hn))
  · obtain ⟨hwfam, hwn⟩ := nOf_of_rowMatches h
    rw [decodeUnder_of_family8 (hwfam.trans hfam)]
    exact decodeFamily8_ne_none (hwn ▸ hn)
  · obtain ⟨hwfam, hwn⟩ := nnOf_of_rowMatches h
    rw [decodeUnder_of_familyE (hwfam.trans hfam)]
    exact decodeFamilyE_ne_none (hwn ▸ hn)
  · obtain ⟨hwfam, hwn⟩ := nnOf_of_rowMatches h
    rw [decodeUnder_of_familyF (hwfam.trans hfam)]
    exact decodeFamilyF_ne_none (hwn ▸ hn)

end

/-- Settles O8: a word that two rows match makes the rows agree where both masks look, which no two do; a word is
decoded exactly when a row matches, and then by the instruction of that row. -/
theorem decodeFollowsOpcodeMap : Obligations.DecodeFollowsOpcodeMap := by
  unfold Obligations.DecodeFollowsOpcodeMap
  refine fun p => ⟨rfl, fun w => ⟨?disjoint, ⟨?unknown, ?unmatched⟩, fun i hd =>
    ⟨rowOf_mem_opcodeRows p i, rowMatches_rowOf_of_decodeUnder hd⟩⟩⟩
  case disjoint =>
    exact fun r r' hr hr' h h' => opcodeRows_disjoint p r hr r' hr' (patterns_agree_of_rowMatches h h')
  case unknown =>
    exact fun hnone r hr => Bool.eq_false_iff.mpr fun h => decodeUnder_ne_none_of_rowMatches hr h hnone
  case unmatched =>
    intro hno
    by_contra hsome
    obtain ⟨i, hd⟩ := Option.ne_none_iff_exists'.mp hsome
    have hmatch := rowMatches_rowOf_of_decodeUnder hd
    rw [hno _ (rowOf_mem_opcodeRows p i)] at hmatch
    cases hmatch

/-- Settles O10: a word below 0x1000 is of family 0, and the low nibble of 5XYN and 9XYN is the one that was encoded. -/
theorem familyZeroAndSkipNibble : Obligations.FamilyZeroAndSkipNibble := by
  unfold Obligations.FamilyZeroAndSkipNibble
  refine ⟨fun p w hw => ?family0, fun x y n hn => ?skip59⟩
  case family0 =>
    have hfam : familyOf w = 0 := Nat.div_eq_of_lt hw
    simp only [decodeUnder, hfam, decodeFamily0]
  case skip59 =>
    obtain ⟨h5, h9⟩ := decodeUnder_skip59 .ignore x y hn
    obtain ⟨h5', h9'⟩ := decodeUnder_skip59 .fault x y hn
    simp only [h5, h9, h5', h9', true_or, if_true, reduceCtorEq, false_or, and_self]

/-- Settles O5: fixed words, decoded by computation. -/
theorem decodeSampleWords : Obligations.DecodeSampleWords := by
  unfold Obligations.DecodeSampleWords
  decide

end Sys2Proof
end

section
/-! The step engine (40_engine.md): what a step of a running machine can do, whatever the policies, and what its report
says of it. -/

namespace Sys2Proof.Machine

/-! ## The Fault record -/

theorem setFault_eq_withRecord (k : FaultKind) (op : Option Word) (a : Option Nat) (s : State) :
    s.setFault (some ⟨k, s.pc, op, a⟩) = withRecord k op a s := rfl

/-! ## Steps (R110 to R117) -/

/-- Settles O12: the engine looks at the record first. -/
theorem haltedStepChangesNothing : Obligations.HaltedStepChangesNothing := by
  unfold Obligations.HaltedStepChangesNothing
  intro s r hr
  constructor
  · simp only [step, engineStep, hr]
  · simp only [stepReport, reportOf, hr]

/-- A fetch past the end records the first address of the two that does not exist (R112). -/
theorem step_of_fetch_failed {s : State} (hf : s.fault = none) (hpc : 0xFFE < s.pc.toNat) :
    step s = .next (withRecord .outOfBounds none (some (max s.pc.toNat 0x1000)) s) := by
  have hpast : ¬ s.pc.toNat + 2 ≤ 4096 := by omega
  simp only [step, engineStep, hf, fetch_eq, hpast, if_false, raiseFault_eq]
  rfl

theorem faultsAtNextFetch (s : State) : FaultsAtNextFetch s := step_of_fetch_failed

/-- Settles O13: past 0xFFF the first failing address is PC, at 0xFFF it is the one after it. -/
theorem fetchPastTheEndFaults : Obligations.FetchPastTheEndFaults := by
  unfold Obligations.FetchPastTheEndFaults
  refine fun s hf => ⟨fun hpc => ?_, fun hpc => ?_⟩
  · rw [step_of_fetch_failed hf (by omega), Nat.max_eq_left hpc]
  · rw [step_of_fetch_failed hf (by omega), hpc]
    rfl

theorem step_of_nextIs {s : State} {i : Instr} (h : NextIs i s) : step s = exec i s := by
  obtain ⟨hf, hpc, hd⟩ := h
  exact engineStep_decoded hf hpc hd

/-- Settles O11: the engine's last branch. -/
theorem stepRunsDecodedInstruction : Obligations.StepRunsDecodedInstruction := by
  unfold Obligations.StepRunsDecodedInstruction
  exact fun _ _ h => step_of_nextIs h

/-- Settles O14: under Halt the record is written, under Nop PC alone moves. -/
theorem unknownOpcodeFollowsPolicy : Obligations.UnknownOpcodeFollowsPolicy := by
  unfold Obligations.UnknownOpcodeFollowsPolicy
  intro p s hf hpc hd
  have hstep : stepUnder p s = unknownOpcode p.unknownOpcode (opcodeAtPc s) s := engineStep_unknown hf hpc hd
  refine ⟨fun hp => ?halt, fun hp => ⟨s.setPc (s.pc + 2), ?nop, rfl, (Frame.refl noCell s).setPc _, ?report⟩⟩
  case halt => rw [hstep, hp]; rfl
  case nop => rw [hstep, hp]; rfl
  case report => simp only [reportOf, hf, State.setPc_fault, hd]

/-- Every instruction answers a next state: none is refused, and a fault is a next state too. -/
theorem execUnder_next (p : Config.Policy) (i : Instr) (s : State) : ∃ t, execUnder p i s = .next t := by
  cases i with
  | ret => simp only [execUnder, execRet_eq]; split <;> exact ⟨_, rfl⟩
  | call addr => simp only [execUnder, execCall_eq]; split <;> exact ⟨_, rfl⟩
  | drw x y n => simp only [execUnder, execDrwUnder_eq]; split <;> exact ⟨_, rfl⟩
  | skp x => simp only [execUnder, execSkpUnder]; split <;> exact ⟨_, rfl⟩
  | sknp x => simp only [execUnder, execSknpUnder]; split <;> exact ⟨_, rfl⟩
  | ldVxK x => simp only [execUnder, execLdVxK]; split <;> exact ⟨_, rfl⟩
  | addI x => simp only [execUnder, execAddIUnder]; split <;> exact ⟨_, rfl⟩
  | ldB x => simp only [execUnder, execLdBUnder_eq]; split_ifs <;> exact ⟨_, rfl⟩
  | saveRegs x => simp only [execUnder, execSaveRegsUnder_eq]; split_ifs <;> exact ⟨_, rfl⟩
  | loadRegs x => simp only [execUnder, execLoadRegs_eq]; split <;> exact ⟨_, rfl⟩
  | _ => exact ⟨_, rfl⟩

/-- Settles O17: each way through the engine ends in a next state. -/
theorem everyStepReachesANextState : Obligations.EveryStepReachesANextState := by
  unfold Obligations.EveryStepReachesANextState
  intro p s
  unfold stepUnder engineStep
  split
  · exact ⟨s, rfl⟩
  · split
    · exact ⟨_, rfl⟩
    · split
      · cases p.unknownOpcode <;> exact ⟨_, rfl⟩
      · exact execUnder_next p _ s

/-- The instructions with an ignored nibble cannot fault (log 8). -/
theorem execUnder_keeps_fault {p : Config.Policy} {q : Config.Skip59LowNibble} {w : Word} {i : Instr} {s t : State}
    (hi : IgnoresNibble q w i) (h : execUnder p i s = .next t) : t.fault = s.fault := by
  obtain ⟨-, ⟨-, rfl⟩ | ⟨-, rfl⟩⟩ := hi <;> cases h <;> rfl

/-- Settles O15: a fault is raised by the fetch, by an unknown word or by the instruction, and each writes the record
alone; an instruction that can fault encodes to the word fetched. -/
theorem faultedStepChangesOnlyTheRecord : Obligations.FaultedStepChangesOnlyTheRecord := by
  unfold Obligations.FaultedStepChangesOnlyTheRecord
  intro p s t r hs h hr
  rcases engineStep_cases h with ⟨r', hr', -⟩ | ⟨-, hpc, rfl⟩ | ⟨-, hpc, hd, hu⟩ | ⟨i, -, hpc, hd, he⟩
  · rw [hs] at hr'; cases hr'
  · cases hr
    exact ⟨rfl, rfl, (if_neg (by omega)).symm⟩
  · cases hp : p.unknownOpcode <;> rw [hp] at hu <;> cases hu
    · cases hr
      exact ⟨rfl, rfl, (if_pos hpc).symm⟩
    · rw [State.setPc_fault, hs] at hr; cases hr
  · rcases execUnder_fault_or he with hsame | ⟨k, a, rfl⟩
    · rw [hsame, hs] at hr; cases hr
    · cases hr
      refine ⟨rfl, rfl, ?_⟩
      obtain ⟨-, hw | hi⟩ := encode_of_decodeUnder hd
      · exact (congrArg some hw).trans (if_pos hpc).symm
      · have hkept := execUnder_keeps_fault hi he
        rw [hs] at hkept
        cases hkept

end Sys2Proof.Machine
end

section
/-! What an instruction can do, said once: it raises a fault for a cause of 60_exceptions.md R280 and changes nothing but
the record, or it completes. Everything later reads off one of the two. -/

namespace Sys2Proof.Machine

/-- The cause of each fault an instruction can raise, and the address its record names. -/
def Raises (i : Instr) (s : State) (k : FaultKind) (a : Option Nat) : Prop :=
  match k with
  | .decodeFault => False
  | .stackOverflow => (∃ addr, i = .call addr) ∧ s.sp = 16 ∧ a = none
  | .stackUnderflow => i = .ret ∧ s.sp = 0 ∧ a = none
  | .keyIndexOutOfRange => (∃ x, (i = .skp x ∨ i = .sknp x) ∧ 0xF < s.v[x].toNat) ∧ a = none
  | .fontWrite => (∃ x, i = .ldB x ∨ i = .saveRegs x) ∧ s.i.toNat ≤ 0x4F ∧ a = some s.i.toNat
  | .outOfBounds => a = some (max s.i.toNat 0x1000) ∧
    ((∃ x y n, i = .drw x y n ∧ 0 < n ∧ 0x1000 < s.i.toNat + n) ∨
     (∃ x, i = .ldB x ∧ 0x1000 < s.i.toNat + 3) ∨
     (∃ x : Reg, (i = .saveRegs x ∨ i = .loadRegs x) ∧ 0x1000 < s.i.toNat + x.val + 1))

/-- A store of bytes from I on that passed its check: they lie above the font region and end by 0xFFF. -/
structure StoresTo (s : State) (bs : List Byte) (t : State) : Prop where
  aboveFont : 0x4F < s.i.toNat
  inMemory : s.i.toNat + bs.length ≤ 4096
  next : t = (s.setMem (s.mem.writeBytes s.i.toNat bs)).setPc (s.pc + 2)

/-- FX0A: wait, take the one key pressed, or draw one of several (R242). -/
inductive TakesKey (x : Reg) (s : State) : State → Prop where
  | waits : TakesKey x s s
  | one (b : Byte) : TakesKey x s ((s.setV x b).setPc (s.pc + 2))
  | drawn (b : Byte) {j k : Fin 16} (hne : j ≠ k) (hj : s.key[j] = true) (hk : s.key[k] = true) :
    TakesKey x s ((s.countDraw.setV x b).setPc (s.pc + 2))

/-- What an instruction does that raises no fault, where it has a check or a choice; else exec is one update. -/
def Completes (i : Instr) (s t : State) : Prop :=
  match i with
  | .ret => ∃ n : Fin 16, t = (s.setStack s.stack n.castSucc).setPc (BitVec.ofNat 16 (s.stack[n].toNat + 2))
  | .call addr => ∃ h : s.sp.val < 16,
    t = (s.setStack (s.stack.set s.sp.val s.pc h) ⟨s.sp.val + 1, by omega⟩).setPc (BitVec.ofNat 16 addr)
  | .skp _ | .sknp _ => ∃ c : Bool, t = s.setPc (if c then s.pc + 4 else s.pc + 2)
  | .ldVxK x => TakesKey x s t
  | .drw _ _ _ => ∃ fb c, t = ((s.setFb fb).setFlag c).setPc (s.pc + 2)
  | .ldB x => StoresTo s (bcdDigits s.v[x]) t
  | .saveRegs x => StoresTo s (regsUpTo s.v x) t
  | .loadRegs x => ∃ f, t = (s.setRegs (fillRegs f (x.val + 1) s.v)).setPc (s.pc + 2)
  | _ => exec i s = .next t

theorem lt_toNat_of_keyIndex_eq_none {p : Config.KeyIndexPolicy} {b : Byte} (h : keyIndex p b = none) :
    0xF < b.toNat := by
  by_contra hle
  rw [keyIndex_of_le (not_lt.mp hle)] at h
  cases h

theorem ne_of_pressedKeys_cons_cons {key : Keypad} {j k : Fin 16} {ks : List (Fin 16)}
    (h : pressedKeys key = j :: k :: ks) : j ≠ k := by
  have hnodup : (pressedKeys key).Nodup := List.Nodup.filter _ (by decide : allKeys.Nodup)
  rw [h] at hnodup
  exact fun e => (List.nodup_cons.mp hnodup).1 (e ▸ List.mem_cons_self)

theorem exec_ldVxK_takesKey {x : Reg} {s t : State} (h : exec (.ldVxK x) s = .next t) : TakesKey x s t := by
  simp only [exec, execLdVxK] at h
  split at h <;> cases h
  · exact .waits
  · exact .one _
  · have hkeys := ‹pressedKeys s.key = _›
    refine .drawn _ (ne_of_pressedKeys_cons_cons hkeys) ?_ ?_ <;> rw [← mem_pressedKeys, hkeys] <;> simp

/-- An instruction raises a fault and changes nothing but the record, or it completes. -/
theorem exec_raises_or_completes {i : Instr} {s t : State} (h : exec i s = .next t) :
    (∃ k a, Raises i s k a ∧ t = withRecord k (some (encode i)) a s) ∨ Completes i s t := by
  cases i with
  | ret =>
    simp only [exec, execRet_eq] at h
    split at h <;> cases h
    · exact .inl ⟨.stackUnderflow, _, ⟨rfl, Fin.ext ‹_›, rfl⟩, rfl⟩
    · exact .inr ⟨⟨s.sp.val - 1, by omega⟩, rfl⟩
  | call addr =>
    simp only [exec, execCall_eq] at h
    split at h <;> cases h
    · exact .inr ⟨‹_›, rfl⟩
    · have hsp : s.sp = 16 := Fin.ext (show s.sp.val = 16 by omega)
      exact .inl ⟨.stackOverflow, _, ⟨⟨addr, rfl⟩, hsp, rfl⟩, rfl⟩
  | skp x =>
    simp only [exec, execSkp, execSkpUnder] at h
    split at h <;> cases h
    · exact .inl ⟨.keyIndexOutOfRange, _, ⟨⟨x, .inl rfl, lt_toNat_of_keyIndex_eq_none ‹_›⟩, rfl⟩, rfl⟩
    · exact .inr ⟨_, rfl⟩
  | sknp x =>
    simp only [exec, execSknp, execSknpUnder] at h
    split at h <;> cases h
    · exact .inl ⟨.keyIndexOutOfRange, _, ⟨⟨x, .inr rfl, lt_toNat_of_keyIndex_eq_none ‹_›⟩, rfl⟩, rfl⟩
    · exact .inr ⟨_, rfl⟩
  | ldVxK x => exact .inr (exec_ldVxK_takesKey h)
  | drw x y n =>
    simp only [exec, execDrw, execDrwUnder_eq] at h
    split at h <;> cases h
    · exact .inr ⟨_, _, rfl⟩
    · exact .inl ⟨.outOfBounds, _, ⟨rfl, .inl ⟨x, y, n, rfl, by omega, by omega⟩⟩, rfl⟩
  | ldB x =>
    simp only [exec, execLdB, execLdBUnder_eq, policy_fontWrite, true_and] at h
    split_ifs at h with hfont hrange <;> cases h
    · exact .inl ⟨.fontWrite, _, ⟨⟨x, .inl rfl⟩, hfont, rfl⟩, rfl⟩
    · exact .inr ⟨not_le.mp hfont, hrange, rfl⟩
    · exact .inl ⟨.outOfBounds, _, ⟨rfl, .inr (.inl ⟨x, rfl, by omega⟩)⟩, rfl⟩
  | saveRegs x =>
    simp only [exec, execSaveRegs, execSaveRegsUnder_eq, policy_fontWrite, true_and] at h
    split_ifs at h with hfont hrange <;> cases h
    · exact .inl ⟨.fontWrite, _, ⟨⟨x, .inr rfl⟩, hfont, rfl⟩, rfl⟩
    · exact .inr ⟨not_le.mp hfont, regsUpTo_length s.v x ▸ hrange, rfl⟩
    · exact .inl ⟨.outOfBounds, _, ⟨rfl, .inr (.inr ⟨x, .inl rfl, by omega⟩)⟩, rfl⟩
  | loadRegs x =>
    simp only [exec, execLoadRegs_eq] at h
    split at h <;> cases h
    · exact .inr ⟨_, rfl⟩
    · exact .inl ⟨.outOfBounds, _, ⟨rfl, .inr (.inr ⟨x, .inr rfl, by omega⟩)⟩, rfl⟩
  | _ => exact .inr h

/-- Completing leaves the Fault record and the keypad as they are. -/
theorem Completes.fault_and_key {i : Instr} {s t : State} (h : Completes i s t) :
    t.fault = s.fault ∧ t.key = s.key := by
  cases i with
  | ret | call _ | skp _ | sknp _ | loadRegs _ =>
    obtain ⟨_, rfl⟩ := h
    exact ⟨rfl, rfl⟩
  | drw _ _ _ =>
    obtain ⟨_, _, rfl⟩ := h
    exact ⟨rfl, rfl⟩
  | ldB _ | saveRegs _ =>
    rw [h.next]
    exact ⟨rfl, rfl⟩
  | ldVxK _ => cases h <;> exact ⟨rfl, rfl⟩
  | _ => cases h; exact ⟨rfl, rfl⟩

/-- So the Fault record stays, or a fault was raised for its cause. -/
theorem exec_fault_or_raises {i : Instr} {s t : State} (h : exec i s = .next t) :
    t.fault = s.fault ∨ ∃ k a, Raises i s k a ∧ t = withRecord k (some (encode i)) a s :=
  (exec_raises_or_completes h).symm.imp_left fun hc => hc.fault_and_key.1

/-- No instruction writes the keypad (10_state.md R32). -/
theorem exec_keeps_key {i : Instr} {s t : State} (h : exec i s = .next t) : t.key = s.key := by
  rcases exec_raises_or_completes h with ⟨_, _, -, rfl⟩ | hc
  · rfl
  · exact hc.fault_and_key.2

end Sys2Proof.Machine
end

section
/-! Which cells an instruction names (10_state.md sections 4, 6 and 8; 20_memory.md section 4). One table and one case
split say that overwriting a cell an instruction does not name makes no difference to it. -/

namespace Sys2Proof.Machine

/-- The parts of the state that only some instructions name. -/
inductive Part where
  | mem | i | stack | key | fb | draws

/-- The parts an instruction reads or writes. -/
def namedParts : Instr → List Part
  | .cls => [.fb]
  | .ret | .call _ => [.stack]
  | .ldI _ | .addI _ | .ldF _ => [.i]
  | .rnd _ _ => [.draws]
  | .drw _ _ _ => [.mem, .i, .fb]
  | .skp _ | .sknp _ => [.key]
  | .ldVxK _ => [.key, .draws]
  | .ldB _ | .saveRegs _ | .loadRegs _ => [.mem, .i]
  | .jp _ | .jpV0 _ | .seImm _ _ | .sneImm _ _ | .seReg _ _ | .sneReg _ _ | .ldImm _ _ | .addImm _ _ => []
  | .ldReg _ _ | .orReg _ _ | .andReg _ _ | .xorReg _ _ | .addReg _ _ | .subReg _ _ | .shr _ _ => []
  | .subn _ _ | .shl _ _ | .ldVxDt _ | .ldDtVx _ | .ldStVx _ => []

/-- The draw counter overwritten (log 7). -/
def State.setDraws (s : State) (n : Nat) : State := { s with draws := n }

/-- A change that overwrites one part and nothing else. -/
inductive Overwrites : Part → (State → State) → Prop where
  | mem (m : Memory) : Overwrites .mem (·.setMem m)
  | i (w : Word) : Overwrites .i (·.setI w)
  | stack (k : Vector Word 16) (n : Fin 17) : Overwrites .stack (·.setStack k n)
  | key (key : Keypad) : Overwrites .key (·.setKeys key)
  | fb (fb : Framebuffer) : Overwrites .fb (·.setFb fb)
  | draws (n : Nat) : Overwrites .draws (·.setDraws n)

section
variable {c : Part} {f : State → State} (hf : Overwrites c f) (s : State)
include hf

theorem Overwrites.raiseIn (i : Instr) (k : FaultKind) (a : Option Nat) :
    raiseIn i k a (f s) = mapNext f (raiseIn i k a s) := by
  cases hf <;> rfl

theorem Overwrites.skipIf (b : Bool) : skipIf b (f s) = mapNext f (skipIf b s) := by
  cases hf <;> rfl

theorem Overwrites.getV (x : Reg) : (f s).getV x = s.getV x := by
  cases hf <;> rfl

theorem Overwrites.key_eq (hc : c ≠ .key) : (f s).key = s.key := by
  cases hf with
  | key => exact absurd rfl hc
  | _ => rfl

/-- A guarded meaning commutes with the change where its body does. -/
theorem Overwrites.guarded {i : Instr} {check : Option AccessFault} {k : State → Result}
    (hk : k (f s) = mapNext f (k s)) : guarded i check k (f s) = mapNext f (guarded i check k s) := by
  cases check with
  | none => exact hk
  | some a => exact hf.raiseIn s i a.kind (some a.addr)

theorem Overwrites.execSkpUnder (hc : c ≠ .key) (p : Config.KeyIndexPolicy) (x : Reg) :
    execSkpUnder p x (f s) = mapNext f (execSkpUnder p x s) := by
  rw [Machine.execSkpUnder, Machine.execSkpUnder, hf.getV, hf.key_eq s hc]
  cases keyIndex p (s.getV x) with
  | none => exact hf.raiseIn s _ _ _
  | some k => exact hf.skipIf s _

theorem Overwrites.execSknpUnder (hc : c ≠ .key) (p : Config.KeyIndexPolicy) (x : Reg) :
    execSknpUnder p x (f s) = mapNext f (execSknpUnder p x s) := by
  rw [Machine.execSknpUnder, Machine.execSknpUnder, hf.getV, hf.key_eq s hc]
  cases keyIndex p (s.getV x) with
  | none => exact hf.raiseIn s _ _ _
  | some k => exact hf.skipIf s _

/-- FX0A: its three cases turn on the keypad alone, and only the third counts a draw. -/
theorem Overwrites.execLdVxK (hkey : c ≠ .key) (hdraws : c ≠ .draws) (x : Reg) :
    execLdVxK x (f s) = mapNext f (execLdVxK x s) := by
  rw [Machine.execLdVxK, Machine.execLdVxK, hf.key_eq s hkey]
  cases hf with
  | key => exact absurd rfl hkey
  | draws => exact absurd rfl hdraws
  | _ =>
    match pressedKeys s.key with
    | [] => rfl
    | [_] => rfl
    | _ :: _ :: _ => rfl

theorem Overwrites.execRet (hc : c ≠ .stack) : execRet (f s) = mapNext f (execRet s) := by
  rw [execRet_eq s, apply_ite (mapNext f)]
  cases hf with
  | stack => exact absurd rfl hc
  | _ => exact execRet_eq _

theorem Overwrites.execCall (hc : c ≠ .stack) (addr : Nat) : execCall addr (f s) = mapNext f (execCall addr s) := by
  rw [execCall_eq addr s, apply_dite (mapNext f)]
  cases hf with
  | stack => exact absurd rfl hc
  | _ => exact execCall_eq addr _

/-! The memory instructions check and reach the addresses from I on. -/

theorem Overwrites.indexed (hc : c ≠ .i) (n : Nat) : indexed (f s) n = indexed s n := by
  cases hf with
  | i => exact absurd rfl hc
  | _ => rfl

theorem Overwrites.execLdBUnder (hmem : c ≠ .mem) (hi : c ≠ .i) (p : Config.FontWritePolicy) (x : Reg) :
    execLdBUnder p x (f s) = mapNext f (execLdBUnder p x s) := by
  rw [Machine.execLdBUnder, Machine.execLdBUnder, hf.indexed s hi]
  refine hf.guarded s ?_
  cases hf with
  | mem => exact absurd rfl hmem
  | i => exact absurd rfl hi
  | _ => rfl

theorem Overwrites.execSaveRegsUnder (hmem : c ≠ .mem) (hi : c ≠ .i) (p : Config.FontWritePolicy) (x : Reg) :
    execSaveRegsUnder p x (f s) = mapNext f (execSaveRegsUnder p x s) := by
  rw [Machine.execSaveRegsUnder, Machine.execSaveRegsUnder, hf.indexed s hi]
  refine hf.guarded s ?_
  cases hf with
  | mem => exact absurd rfl hmem
  | i => exact absurd rfl hi
  | _ => rfl

theorem Overwrites.execLoadRegs (hmem : c ≠ .mem) (hi : c ≠ .i) (x : Reg) :
    execLoadRegs x (f s) = mapNext f (execLoadRegs x s) := by
  rw [Machine.execLoadRegs, Machine.execLoadRegs, hf.indexed s hi]
  refine hf.guarded s ?_
  cases hf with
  | mem => exact absurd rfl hmem
  | i => exact absurd rfl hi
  | _ => rfl

theorem Overwrites.execDrwUnder (hmem : c ≠ .mem) (hi : c ≠ .i) (hfb : c ≠ .fb) (p : Config.DrawEdgePolicy)
    (x y : Reg) (n : Nat) : execDrwUnder p x y n (f s) = mapNext f (execDrwUnder p x y n s) := by
  rw [Machine.execDrwUnder, Machine.execDrwUnder, hf.indexed s hi]
  refine hf.guarded s ?_
  cases hf with
  | mem => exact absurd rfl hmem
  | i => exact absurd rfl hi
  | fb => exact absurd rfl hfb
  | _ => rfl

end

/-- Overwriting a part an instruction does not name makes no difference to it. -/
theorem untouched_of_not_named {c : Part} {f : State → State} {i : Instr} (hf : Overwrites c f)
    (hc : c ∉ namedParts i) : Untouched f i := by
  intro s
  cases i <;> simp only [namedParts, List.mem_cons, List.not_mem_nil, or_false, not_or] at hc
  case ret => exact hf.execRet s hc
  case call addr => exact hf.execCall s hc addr
  case skp x => exact hf.execSkpUnder s hc _ x
  case sknp x => exact hf.execSknpUnder s hc _ x
  case ldVxK x => exact hf.execLdVxK s hc.1 hc.2 x
  case drw x y n => exact hf.execDrwUnder s hc.1 hc.2.1 hc.2.2 _ x y n
  case ldB x => exact hf.execLdBUnder s hc.1 hc.2 _ x
  case saveRegs x => exact hf.execSaveRegsUnder s hc.1 hc.2 _ x
  case loadRegs x => exact hf.execLoadRegs s hc.1 hc.2 x
  case cls =>
    cases hf with
    | fb => exact absurd rfl hc
    | _ => rfl
  case ldI | addI | ldF =>
    cases hf with
    | i => exact absurd rfl hc
    | _ => rfl
  case rnd =>
    cases hf with
    | draws => exact absurd rfl hc
    | _ => rfl
  all_goals cases hf <;> rfl

/-! ## Who names what -/

section
variable {i : Instr}

theorem stack_not_named (hcall : ∀ a, i ≠ .call a) (hret : i ≠ .ret) : Part.stack ∉ namedParts i := by
  cases i <;> simp_all [namedParts]

theorem key_not_named (hskp : ∀ x, i ≠ .skp x) (hsknp : ∀ x, i ≠ .sknp x) (hwait : ∀ x, i ≠ .ldVxK x) :
    Part.key ∉ namedParts i := by
  cases i <;> simp_all [namedParts]

theorem fb_not_named (hcls : i ≠ .cls) (hdrw : ∀ x y n, i ≠ .drw x y n) : Part.fb ∉ namedParts i := by
  cases i <;> simp_all [namedParts]

theorem mem_not_named (hdrw : ∀ x y n, i ≠ .drw x y n) (hldB : ∀ x, i ≠ .ldB x) (hsave : ∀ x, i ≠ .saveRegs x)
    (hload : ∀ x, i ≠ .loadRegs x) : Part.mem ∉ namedParts i := by
  cases i <;> simp_all [namedParts]

theorem i_not_named (hldI : ∀ a, i ≠ .ldI a) (haddI : ∀ x, i ≠ .addI x) (hldF : ∀ x, i ≠ .ldF x)
    (hmem : Part.mem ∉ namedParts i) : Part.i ∉ namedParts i := by
  cases i <;> simp_all [namedParts]

theorem draws_not_named (hrnd : ∀ x nn, i ≠ .rnd x nn) (hwait : ∀ x, i ≠ .ldVxK x) : Part.draws ∉ namedParts i := by
  cases i <;> simp_all [namedParts]

end

/-! ## What an instruction leaves as it is -/

section
variable {i : Instr} {s t : State}

theorem exec_keeps_stack (hcall : ∀ a, i ≠ .call a) (hret : i ≠ .ret) (h : exec i s = .next t) :
    t.stack = s.stack ∧ t.sp = s.sp := by
  have hset := (untouched_of_not_named (.stack s.stack s.sp) (stack_not_named hcall hret)).next_eq rfl h
  rw [← hset]
  exact ⟨rfl, rfl⟩

theorem exec_keeps_mem_of_not_named (hmem : Part.mem ∉ namedParts i) (h : exec i s = .next t) : t.mem = s.mem := by
  rw [← (untouched_of_not_named (.mem s.mem) hmem).next_eq rfl h, State.setMem_mem]

theorem exec_keeps_draws (hrnd : ∀ x nn, i ≠ .rnd x nn) (hwait : ∀ x, i ≠ .ldVxK x) (h : exec i s = .next t) :
    t.draws = s.draws := by
  rw [← (untouched_of_not_named (.draws s.draws) (draws_not_named hrnd hwait)).next_eq rfl h]
  rfl

/-- The memory instructions write a part of memory, registers, pixels, PC and the record, never I (decision D14). -/
theorem exec_keeps_i (hldI : ∀ a, i ≠ .ldI a) (haddI : ∀ x, i ≠ .addI x) (hldF : ∀ x, i ≠ .ldF x)
    (h : exec i s = .next t) : t.i = s.i := by
  by_cases hmem : Part.mem ∈ namedParts i
  · rcases exec_raises_or_completes h with ⟨_, _, -, rfl⟩ | hc
    · rfl
    · cases i <;> simp only [namedParts, List.mem_cons, List.not_mem_nil, reduceCtorEq, or_false] at hmem
      case drw =>
        obtain ⟨_, _, rfl⟩ := hc
        rfl
      case ldB | saveRegs => rw [hc.next]; rfl
      case loadRegs =>
        obtain ⟨_, rfl⟩ := hc
        rfl
  · rw [← (untouched_of_not_named (.i s.i) (i_not_named hldI haddI hldF hmem)).next_eq rfl h, State.setI_i]

end

/-- Settles O21: the table of named parts. -/
theorem onlyCallAndReturnTouchTheStack : Obligations.OnlyCallAndReturnTouchTheStack := by
  unfold Obligations.OnlyCallAndReturnTouchTheStack
  exact fun k n _ hcall hret => untouched_of_not_named (.stack k n) (stack_not_named hcall hret)

/-- Settles O22: a step that runs no instruction writes the record alone. -/
theorem keypadIsReadOnlyToPrograms : Obligations.KeypadIsReadOnlyToPrograms := by
  unfold Obligations.KeypadIsReadOnlyToPrograms
  refine ⟨fun s t h => ?_, fun key i hskp hsknp hwait =>
    untouched_of_not_named (.key key) (key_not_named hskp hsknp hwait)⟩
  rcases step_fault_or_exec h with ⟨_, rfl⟩ | ⟨i, -, he⟩
  · rfl
  · exact exec_keeps_key he

/-- Settles O23: the table of named parts for the first three clauses, D14 for the last. -/
theorem cellsAreTouchedOnlyByTheirInstructions : Obligations.CellsAreTouchedOnlyByTheirInstructions := by
  unfold Obligations.CellsAreTouchedOnlyByTheirInstructions
  refine ⟨fun fb i hcls hdrw => untouched_of_not_named (.fb fb) (fb_not_named hcls hdrw),
    fun w i hldI haddI hldF hdrw hldB hsave hload => untouched_of_not_named (.i w)
      (i_not_named hldI haddI hldF (mem_not_named hdrw hldB hsave hload)),
    fun m i hdrw hldB hsave hload => untouched_of_not_named (.mem m) (mem_not_named hdrw hldB hsave hload),
    fun s t i hldI haddI hldF h => exec_keeps_i hldI haddI hldF h⟩

end Sys2Proof.Machine
end

section
/-! What an instruction writes to memory and to VF, and which draws it takes. -/

namespace Sys2Proof.Machine

/-! ## Memory (20_memory.md R60) -/

/-- The instructions that store, and how many bytes. -/
def StoreOf (i : Instr) (length : Nat) : Prop :=
  (∃ x, i = .ldB x ∧ length = 3) ∨ ∃ x : Reg, i = .saveRegs x ∧ length = x.val + 1

/-- An instruction leaves memory as it is or stores bytes from I on. -/
theorem exec_mem {i : Instr} {s t : State} (h : exec i s = .next t) :
    t.mem = s.mem ∨ ∃ bs, StoreOf i bs.length ∧ StoresTo s bs t := by
  by_cases hmem : Part.mem ∈ namedParts i
  · rcases exec_raises_or_completes h with ⟨_, _, -, rfl⟩ | hc
    · exact .inl rfl
    · cases i <;> simp only [namedParts, List.mem_cons, List.not_mem_nil, reduceCtorEq, or_false] at hmem
      case drw x y n =>
        obtain ⟨_, _, rfl⟩ := hc
        exact .inl rfl
      case loadRegs x =>
        obtain ⟨_, rfl⟩ := hc
        exact .inl rfl
      case ldB x => exact .inr ⟨_, .inl ⟨x, rfl, rfl⟩, hc⟩
      case saveRegs x => exact .inr ⟨_, .inr ⟨x, rfl, regsUpTo_length s.v x⟩, hc⟩
  · exact .inl (exec_keeps_mem_of_not_named hmem h)

/-- A byte that reads differently was stored. -/
theorem exec_mem_read {i : Instr} {s t : State} {a : Nat} (h : exec i s = .next t) (ha : t.mem.read a ≠ s.mem.read a) :
    ∃ n, StoreOf i n ∧ 0x4F < s.i.toNat ∧ s.i.toNat + n ≤ 4096 ∧ s.i.toNat ≤ a ∧ a < s.i.toNat + n := by
  rcases exec_mem h with hsame | ⟨bs, hstore, hfont, hend, rfl⟩
  · rw [hsame] at ha
    exact absurd rfl ha
  · have hin : ¬ (a < s.i.toNat ∨ s.i.toNat + bs.length ≤ a) := mt (Memory.read_writeBytes_outside _ _ _ _) ha
    exact ⟨bs.length, hstore, hfont, hend, by omega, by omega⟩

/-- Settles O25: only a store changes a byte, and its range was checked. -/
theorem memoryChangesOnlyByStores : Obligations.MemoryChangesOnlyByStores := by
  unfold Obligations.MemoryChangesOnlyByStores
  intro s t a h ha
  rcases step_fault_or_exec h with ⟨_, rfl⟩ | ⟨i, hnext, he⟩
  · exact absurd rfl ha
  · obtain ⟨n, hstore, hfont, hend, hlo, hhi⟩ := exec_mem_read he ha
    refine ⟨by omega, by omega, hstore.imp ?_ ?_⟩
    · rintro ⟨x, rfl, rfl⟩
      exact ⟨x, hnext, hlo, by omega⟩
    · rintro ⟨x, rfl, rfl⟩
      exact ⟨x, hnext, hlo, by omega⟩

/-! ## The flag register (10_state.md section 3) -/

theorem eq_fifteen_of_setV_ne {s : State} {x : Reg} {b : Byte} (h : (s.setV x b).v[(15 : Reg)] ≠ s.v[(15 : Reg)]) :
    x = 15 := by
  by_contra hx
  exact h (State.setV_read_ne s x 15 b (Ne.symm hx))

/-- Settles O24: an instruction that writes one register changes VF only where that register is VF; FX65 writes V0..VX,
so it reaches VF only with X = F. -/
theorem flagRegisterChangesOnlyWhereDocumented : Obligations.FlagRegisterChangesOnlyWhereDocumented := by
  unfold Obligations.FlagRegisterChangesOnlyWhereDocumented
  intro s t i h hv
  rcases exec_raises_or_completes h with ⟨_, _, -, rfl⟩ | hc
  · exact absurd rfl hv
  cases i with
  | addReg x y | subReg x y | subn x y | shr x y | shl x y => exact .inl ⟨x, y, by simp⟩
  | drw x y n => exact .inr (.inl ⟨x, y, n, rfl⟩)
  | ldImm x nn | addImm x nn | rnd x nn | ldReg x y | orReg x y | andReg x y | xorReg x y | ldVxDt x =>
    cases h
    obtain rfl := eq_fifteen_of_setV_ne hv
    simp
  | ldVxK x =>
    cases hc with
    | waits => exact absurd rfl hv
    | one b | drawn b =>
      obtain rfl := eq_fifteen_of_setV_ne hv
      simp
  | loadRegs x =>
    obtain ⟨f, rfl⟩ := hc
    rw [State.setPc_v, State.setRegs_v, fillRegs_read] at hv
    have hx : x = 15 := by
      by_contra hx
      exact hv (if_neg fun hlt => hx (le_antisymm (Fin.le_last x) (Nat.le_of_lt_succ hlt)))
    subst hx
    simp
  | ret | call addr | skp x | sknp x =>
    obtain ⟨_, rfl⟩ := hc
    exact absurd rfl hv
  | ldB x | saveRegs x =>
    rw [hc.next] at hv
    exact absurd rfl hv
  | _ => cases h; exact absurd rfl hv

/-! ## Draws (40_engine.md R120) -/

/-- An instruction takes a draw only as CXNN, or as FX0A with two keys pressed. -/
theorem exec_draws {i : Instr} {s t : State} (h : exec i s = .next t) :
    t.draws = s.draws ∨ (t.draws = s.draws + 1 ∧
      ((∃ x nn, i = .rnd x nn) ∨ (∃ x, i = .ldVxK x) ∧ ∃ j k : Fin 16, j ≠ k ∧ s.key[j] = true ∧ s.key[k] = true)) := by
  by_cases hrnd : ∃ x nn, i = .rnd x nn
  · obtain ⟨x, nn, rfl⟩ := hrnd
    cases h
    exact .inr ⟨rfl, .inl ⟨x, nn, rfl⟩⟩
  by_cases hwait : ∃ x, i = .ldVxK x
  · obtain ⟨x, rfl⟩ := hwait
    cases exec_ldVxK_takesKey h with
    | waits | one b => exact .inl rfl
    | drawn b hne hj hk => exact .inr ⟨rfl, .inr ⟨⟨x, rfl⟩, _, _, hne, hj, hk⟩⟩
  · exact .inl (exec_keeps_draws (fun x nn e => hrnd ⟨x, nn, e⟩) (fun x e => hwait ⟨x, e⟩) h)

/-- Settles O27: a step that runs no instruction takes no draw. -/
theorem drawsAreTakenOnlyWhereTheRulesSay : Obligations.DrawsAreTakenOnlyWhereTheRulesSay := by
  unfold Obligations.DrawsAreTakenOnlyWhereTheRulesSay
  intro s t h
  rcases step_fault_or_exec h with ⟨_, rfl⟩ | ⟨i, hnext, he⟩
  · exact .inl rfl
  · refine (exec_draws he).imp_right fun ⟨hdraws, hcause⟩ => ⟨hdraws, hcause.imp ?_ ?_⟩
    · rintro ⟨x, nn, rfl⟩
      exact ⟨x, nn, hnext⟩
    · rintro ⟨⟨x, rfl⟩, hkeys⟩
      exact ⟨⟨x, hnext⟩, hkeys⟩

end Sys2Proof.Machine
end

section
/-! Faults and reports of whole steps (60_exceptions.md section 1, 40_engine.md R110), and the stack cells no step sees
(10_state.md section 6). -/

namespace Sys2Proof.Machine

/-- Settles O16: a fetch past the end, an unknown word, or the cause the instruction had. -/
theorem faultKindsHaveTheirCauses : Obligations.FaultKindsHaveTheirCauses := by
  unfold Obligations.FaultKindsHaveTheirCauses
  intro s t r hs h hr
  rcases engineStep_cases h with ⟨r', hr', -⟩ | ⟨-, hpc, rfl⟩ | ⟨-, hpc, hd, hu⟩ | ⟨i, -, hpc, hd, he⟩
  · rw [hs] at hr'; cases hr'
  · cases hr
    exact .inl ⟨hpc, rfl, rfl⟩
  · cases hu
    cases hr
    exact ⟨hpc, hd, rfl⟩
  · have hnext : NextIs i s := ⟨hs, hpc, hd⟩
    rcases exec_fault_or_raises he with hsame | ⟨k, a, hraises, rfl⟩
    · rw [hsame, hs] at hr; cases hr
    · cases hr
      cases k with
      | decodeFault => exact hraises.elim
      | stackOverflow =>
        obtain ⟨⟨addr, rfl⟩, hsp, ha⟩ := hraises
        exact ⟨⟨addr, hnext⟩, hsp, ha⟩
      | stackUnderflow =>
        obtain ⟨rfl, hsp, ha⟩ := hraises
        exact ⟨hnext, hsp, ha⟩
      | keyIndexOutOfRange =>
        obtain ⟨⟨x, rfl | rfl, hv⟩, ha⟩ := hraises
        · exact ⟨⟨x, .inl hnext, hv⟩, ha⟩
        · exact ⟨⟨x, .inr hnext, hv⟩, ha⟩
      | fontWrite =>
        obtain ⟨⟨x, rfl | rfl⟩, hi, ha⟩ := hraises
        · exact ⟨⟨x, .inl hnext⟩, hi, ha⟩
        · exact ⟨⟨x, .inr hnext⟩, hi, ha⟩
      | outOfBounds =>
        obtain ⟨ha, ⟨x, y, n, rfl, hn⟩ | ⟨x, rfl, hn⟩ | ⟨x, rfl | rfl, hn⟩⟩ := hraises
        · exact .inr ⟨ha, .inl ⟨x, y, n, hnext, hn⟩⟩
        · exact .inr ⟨ha, .inr (.inl ⟨x, hnext, hn⟩)⟩
        · exact .inr ⟨ha, .inr (.inr ⟨x, .inl hnext, hn⟩)⟩
        · exact .inr ⟨ha, .inr (.inr ⟨x, .inr hnext, hn⟩)⟩

/-! ## Waiting (45_input.md R242) -/

theorem pressedKeys_eq_nil_iff (key : Keypad) : pressedKeys key = [] ↔ ∀ k : Fin 16, key[k] = false := by
  simp only [List.eq_nil_iff_forall_not_mem, mem_pressedKeys, Bool.not_eq_true]

theorem isKeyWait_iff (i : Instr) : isKeyWait i = true ↔ ∃ x, i = .ldVxK x := by
  cases i <;> simp [isKeyWait]

theorem exec_ldVxK_of_no_key {s : State} (x : Reg) (h : ∀ k : Fin 16, s.key[k] = false) :
    exec (.ldVxK x) s = .next s := by
  simp only [exec, execLdVxK, (pressedKeys_eq_nil_iff s.key).mpr h, waitHere_eq]

theorem nextIs_unique {s : State} {i j : Instr} (hi : NextIs i s) (hj : NextIs j s) : i = j :=
  Option.some.inj (hi.2.2.symm.trans hj.2.2)

/-- A machine is waiting exactly where its next instruction is FX0A and no key is pressed. -/
theorem waiting_iff {s : State} {i : Instr} (h : NextIs i s) :
    Waiting s ↔ (isKeyWait i && (pressedKeys s.key).isEmpty) = true := by
  rw [Bool.and_eq_true, isKeyWait_iff, List.isEmpty_iff, pressedKeys_eq_nil_iff, Waiting]
  refine and_congr_left fun _ => exists_congr fun x => ⟨nextIs_unique h, ?_⟩
  rintro rfl
  exact h

/-- The report of a step that ran an instruction and raised no fault. -/
theorem stepReport_of_nextIs {s t : State} {i : Instr} (h : NextIs i s) (ht : t.fault = none) :
    stepReport s t = if isKeyWait i && (pressedKeys s.key).isEmpty then .waiting else .retired := by
  have hd : decode (opcodeAtPc s) = some i := h.2.2
  simp only [stepReport, reportOf, h.1, ht, hd]

theorem stepReport_withRecord {s : State} (k : FaultKind) (op : Option Word) (a : Option Nat) (hs : s.fault = none) :
    stepReport s (withRecord k op a s) = .faulted ⟨k, s.pc, op, a⟩ := by
  simp only [stepReport, reportOf, hs, withRecord]

/-- Settles O18: a step stays halted, writes a record, or runs an instruction, which waits or retires. -/
theorem stepReportsMeanWhatTheySay : Obligations.StepReportsMeanWhatTheySay := by
  unfold Obligations.StepReportsMeanWhatTheySay
  intro s t h
  rcases engineStep_cases h with ⟨r, hr, rfl⟩ | ⟨hs, -, ht⟩ | ⟨hs, -, -, hu⟩ | ⟨i, hs, hpc, hd, he⟩
  · rw [(haltedStepChangesNothing t r hr).2]
    exact ⟨hr, rfl⟩
  · rw [ht, setFault_eq_withRecord, stepReport_withRecord _ _ _ hs]
    exact ⟨hs, rfl⟩
  · cases hu
    rw [setFault_eq_withRecord, stepReport_withRecord _ _ _ hs]
    exact ⟨hs, rfl⟩
  · have hnext : NextIs i s := ⟨hs, hpc, hd⟩
    rcases exec_fault_or_raises he with hsame | ⟨k, a, -, rfl⟩
    · rw [hs] at hsame
      rw [stepReport_of_nextIs hnext hsame]
      by_cases hw : Waiting s
      · rw [if_pos ((waiting_iff hnext).mp hw)]
        refine ⟨hw, ?_⟩
        obtain ⟨⟨x, hx⟩, hkeys⟩ := hw
        rw [nextIs_unique hnext hx, exec_ldVxK_of_no_key x hkeys] at he
        exact (Host.Outcome.next.inj he).symm
      · rw [if_neg fun hc => hw ((waiting_iff hnext).mpr hc)]
        exact ⟨⟨i, hnext⟩, hsame, hw⟩
    · rw [stepReport_withRecord _ _ _ hs]
      exact ⟨hs, rfl⟩

/-! ## Stack cells at or above SP (decision D6) -/

/-- Two stacks agree below a height. -/
def AgreeBelow (n : Nat) (k k' : Vector Word 16) : Prop := ∀ j : Fin 16, j.val < n → k'[j] = k[j]

/-- A push writes the same cell of both stacks. -/
theorem AgreeBelow.set {n : Nat} {k k' : Vector Word 16} (h : AgreeBelow n k k') (w : Word) (hn : n < 16) :
    AgreeBelow (n + 1) (k.set n w) (k'.set n w) := by
  intro j hj
  simp only [Fin.getElem_fin, Vector.getElem_set]
  split
  · rfl
  · exact h j (by omega)

theorem AgreeBelow.mono {n m : Nat} {k k' : Vector Word 16} (h : AgreeBelow n k k') (hm : m ≤ n) : AgreeBelow m k k' :=
  fun j hj => h j (by omega)

/-- An instruction takes states that differ only in unseen stack cells to such states. -/
theorem exec_setStack_of_agree {i : Instr} {s t : State} {k : Vector Word 16} (hk : AgreeBelow s.sp.val s.stack k)
    (h : exec i s = .next t) :
    ∃ k', exec i (s.setStack k s.sp) = .next (t.setStack k' t.sp) ∧ AgreeBelow t.sp.val t.stack k' := by
  by_cases hcall : ∃ addr, i = .call addr
  · obtain ⟨addr, rfl⟩ := hcall
    simp only [exec, execCall_eq] at h ⊢
    split at h <;> cases h
    · have hsp := ‹s.sp.val < 16›
      refine ⟨k.set s.sp.val s.pc, ?_, hk.set s.pc hsp⟩
      exact dif_pos hsp
    · exact ⟨k, dif_neg ‹_›, hk⟩
  by_cases hret : i = .ret
  · subst hret
    simp only [exec, execRet_eq] at h ⊢
    split at h <;> cases h
    · exact ⟨k, if_pos ‹_›, hk⟩
    · have hsp := ‹¬ s.sp.val = 0›
      have htop : k[s.sp.val - 1] = s.stack[s.sp.val - 1] := hk ⟨s.sp.val - 1, by omega⟩ (Nat.pred_lt hsp)
      refine ⟨k, (if_neg hsp).trans ?_, hk.mono (Nat.sub_le _ _)⟩
      simp only [State.setStack_stack, State.setStack_sp, htop]
      rfl
  · have hcall := not_exists.mp hcall
    obtain ⟨hstack, hsp⟩ := exec_keeps_stack hcall hret h
    refine ⟨k, ?_, ?_⟩
    · have hu := untouched_of_not_named (.stack k s.sp) (stack_not_named hcall hret) s
      rw [h] at hu
      exact hsp ▸ hu
    · rwa [hsp, hstack]

/-- Settles O26: CALL and RET look at the cells below SP alone, and no other instruction at the stack at all. -/
theorem poppedStackCellsAreNeverSeen : Obligations.PoppedStackCellsAreNeverSeen := by
  unfold Obligations.PoppedStackCellsAreNeverSeen
  intro s t k hk h
  rcases engineStep_cases h with ⟨r, hr, rfl⟩ | ⟨hs, hpc, rfl⟩ | ⟨hs, hpc, hd, hu⟩ | ⟨i, hs, hpc, hd, he⟩
  · exact ⟨k, (haltedStepChangesNothing (t.setStack k t.sp) r hr).1, hk⟩
  · exact ⟨k, step_of_fetch_failed hs hpc, hk⟩
  · cases hu
    have hstep : step (s.setStack k s.sp) = _ := engineStep_unknown hs hpc hd
    exact ⟨k, hstep, hk⟩
  · obtain ⟨k', hexec, hagree⟩ := exec_setStack_of_agree hk he
    have hnext : NextIs i (s.setStack k s.sp) := ⟨hs, hpc, hd⟩
    exact ⟨k', (step_of_nextIs hnext).trans hexec, hagree⟩

end Sys2Proof.Machine
end

section
/-! The invariant (10_state.md sections 5 and 6, 20_memory.md section 1, 60_exceptions.md section 1). -/

namespace Sys2Proof.Machine

/-! ## PC and the stack -/

section
variable {s t : State} {i : Instr}

theorem pc_add_two_toNat (hpc : s.pc.toNat ≤ 0xFFE) : (s.pc + 2).toNat = s.pc.toNat + 2 := by bv_omega

theorem pc_add_four_toNat (hpc : s.pc.toNat ≤ 0xFFE) : (s.pc + 4).toNat = s.pc.toNat + 4 := by bv_omega

theorem ofNat_toNat_of_le {n : Nat} (hn : n ≤ 0x10FE) : (BitVec.ofNat 16 n : Word).toNat = n := by
  rw [BitVec.toNat_ofNat]
  omega

/-- No instruction fetched from memory sets PC above 0x10FE: the largest target is 0xFFF + 0xFF, of BNNN (R27). -/
theorem exec_pc_le (hwf : i.wf = true) (hpc : s.pc.toNat ≤ 0xFFE) (hstack : ∀ k : Fin 16, s.stack[k].toNat ≤ 0xFFE)
    (h : exec i s = .next t) : t.pc.toNat ≤ 0x10FE := by
  have hsame : s.pc.toNat ≤ 0x10FE := by omega
  have hadvance : (s.pc + 2).toNat ≤ 0x10FE := by rw [pc_add_two_toNat hpc]; omega
  have hskip (c : Bool) : (if c then s.pc + 4 else s.pc + 2).toNat ≤ 0x10FE := by
    cases c
    · exact hadvance
    · exact (pc_add_four_toNat hpc).trans_le (by omega)
  have htarget {n : Nat} (hn : n ≤ 0x10FE) : (BitVec.ofNat 16 n : Word).toNat ≤ 0x10FE := by
    rwa [ofNat_toNat_of_le hn]
  rcases exec_raises_or_completes h with ⟨_, _, -, rfl⟩ | hc
  · exact hsame
  cases i with
  | jp addr =>
    have haddr : addr ≤ 0xFFF := of_decide_eq_true hwf
    cases h
    exact htarget (by omega)
  | jpV0 addr =>
    have haddr : addr ≤ 0xFFF := of_decide_eq_true hwf
    have hv0 := nn_le (s.getV 0)
    cases h
    exact htarget (by omega)
  | call addr =>
    have haddr : addr ≤ 0xFFF := of_decide_eq_true hwf
    obtain ⟨_, rfl⟩ := hc
    exact htarget (by omega)
  | ret =>
    obtain ⟨n, rfl⟩ := hc
    exact htarget (Nat.add_le_add (hstack n) (by decide : 2 ≤ 0x100))
  | seImm x nn | sneImm x nn | seReg x y | sneReg x y =>
    cases h
    exact hskip _
  | skp x | sknp x =>
    obtain ⟨c, rfl⟩ := hc
    exact hskip c
  | ldVxK x =>
    cases hc with
    | waits => exact hsame
    | one b | drawn b => exact hadvance
  | drw x y n =>
    obtain ⟨_, _, rfl⟩ := hc
    exact hadvance
  | loadRegs x =>
    obtain ⟨_, rfl⟩ := hc
    exact hadvance
  | ldB x | saveRegs x =>
    rw [hc.next]
    exact hadvance
  | _ => cases h; exact hadvance

/-- A CALL pushes its own address, which was fetched from; no other instruction writes a stack cell. -/
theorem exec_stack_le (hpc : s.pc.toNat ≤ 0xFFE) (hstack : ∀ k : Fin 16, s.stack[k].toNat ≤ 0xFFE)
    (h : exec i s = .next t) (k : Fin 16) : t.stack[k].toNat ≤ 0xFFE := by
  rcases exec_raises_or_completes h with ⟨_, _, -, rfl⟩ | hc
  · exact hstack k
  by_cases hcall : ∃ addr, i = .call addr
  · obtain ⟨addr, rfl⟩ := hcall
    obtain ⟨_, rfl⟩ := hc
    simp only [State.setPc_stack, State.setStack_stack, Fin.getElem_fin, Vector.getElem_set]
    split
    · exact hpc
    · exact hstack k
  by_cases hret : i = .ret
  · subst hret
    obtain ⟨_, rfl⟩ := hc
    exact hstack k
  · rw [(exec_keeps_stack (not_exists.mp hcall) hret h).1]
    exact hstack k

/-! ## Memory and the record -/

theorem exec_mem_wf (hmem : s.mem.wf = true) (h : exec i s = .next t) : t.mem.wf = true := by
  rcases exec_mem h with hsame | ⟨bs, -, -, hend, rfl⟩
  · rwa [hsame]
  · exact Memory.wf_writeBytes bs hend hmem

theorem exec_keeps_font {a : Nat} (ha : a < 80) (h : exec i s = .next t) : t.mem.read a = s.mem.read a := by
  by_contra hne
  obtain ⟨_, -, hfont, -, hlo, -⟩ := exec_mem_read h hne
  omega

theorem Raises.ok {k : FaultKind} {a : Option Nat} (h : Raises i s k a) :
    (⟨k, s.pc, some (encode i), a⟩ : FaultRecord).ok := by
  cases k with
  | decodeFault => exact h.elim
  | stackOverflow | stackUnderflow => exact ⟨rfl, h.2.2⟩
  | keyIndexOutOfRange => exact ⟨rfl, h.2⟩
  | fontWrite => exact ⟨rfl, _, h.2.2, h.2.1⟩
  | outOfBounds => exact ⟨_, h.1, by omega⟩

/-- Writing an ok record of the instruction at PC keeps the invariant. -/
theorem Inv.withRecord (h : Inv s) {k : FaultKind} {op : Option Word} {a : Option Nat}
    (hok : (⟨k, s.pc, op, a⟩ : FaultRecord).ok) : Inv (withRecord k op a s) where
  memory := h.memory
  font := h.font
  pc := h.pc
  stack := h.stack
  record := by
    rintro r ⟨⟩
    exact ⟨rfl, hok⟩

/-- Every instruction the decoder gives keeps the invariant. -/
theorem exec_keeps_inv (hs : Inv s) (hrunning : s.fault = none) (hpc : s.pc.toNat ≤ 0xFFE) (hwf : i.wf = true)
    (h : exec i s = .next t) : Inv t := by
  rcases exec_fault_or_raises h with hfault | ⟨k, a, hraises, rfl⟩
  · exact {
      memory := exec_mem_wf hs.memory h
      font := fun a ha => (exec_keeps_font ha h).trans (hs.font a ha)
      pc := exec_pc_le hwf hpc hs.stack h
      stack := exec_stack_le hpc hs.stack h
      record := fun r hr => by rw [hfault, hrunning] at hr; cases hr }
  · exact hs.withRecord hraises.ok

end

/-- Settles O3: a step stays halted, writes a record, or runs a decoded, so well-formed, instruction. -/
theorem stepKeepsInvariant : Obligations.StepKeepsInvariant := by
  unfold Obligations.StepKeepsInvariant
  intro s t hs h
  rcases engineStep_cases h with ⟨r, hr, rfl⟩ | ⟨-, hpc, rfl⟩ | ⟨-, -, -, hu⟩ | ⟨i, hf, hpc, hd, he⟩
  · exact hs
  · exact hs.withRecord ⟨_, rfl, by omega⟩
  · cases hu
    exact hs.withRecord ⟨rfl, rfl⟩
  · exact exec_keeps_inv hs hf (by omega) (encode_of_decodeUnder hd).1 he

/-! ## Reset (10_state.md R37) -/

/-- Settles O1: nothing is listed in memory, so it reads as its reset contents. -/
theorem resetStateValues : Obligations.ResetStateValues := by
  unfold Obligations.ResetStateValues
  refine ⟨fun a ha => dif_pos ha, fun a ha => dif_neg (not_lt.mpr ha), ?_, rfl, rfl, ?_, rfl, rfl, rfl,
    pixelAt_clearScreen, ?_, rfl⟩
  · exact fun r => Vector.getElem_replicate r.isLt
  · exact fun k => Vector.getElem_replicate k.isLt
  · exact fun k => Vector.getElem_replicate k.isLt

/-- Settles O2: canonical because empty; the other clauses are the reset table. -/
theorem resetSatisfiesInvariant : Obligations.ResetSatisfiesInvariant where
  memory := Memory.wf_reset
  font := resetStateValues.1
  pc := by decide
  stack := fun k => by
    obtain ⟨-, -, -, -, -, hstack, -⟩ := resetStateValues
    rw [hstack k]
    decide
  record := nofun

/-! ## The host's transactions (60_exceptions.md section 5) -/

/-- Changes of the timers and the keypad are outside the invariant. -/
theorem Inv.congr {s t : State} (h : Inv s) (hmem : t.mem = s.mem) (hpc : t.pc = s.pc) (hstack : t.stack = s.stack)
    (hfault : t.fault = s.fault) : Inv t where
  memory := hmem ▸ h.memory
  font := hmem ▸ h.font
  pc := hpc ▸ h.pc
  stack := hstack ▸ h.stack
  record := hfault ▸ hpc ▸ h.record

/-- LOAD writes from 0x200 on, above the font region, and a program it accepts fits. -/
theorem loadProgram_keeps_inv {program : List Byte} {s t : State} (hs : Inv s) (h : loadProgram program s = some t) :
    Inv t := by
  unfold loadProgram at h
  split at h <;> cases h
  have hfits := not_lt.mp ‹¬ Config.programBase + program.length > Config.memSize›
  exact {
    memory := Memory.wf_writeBytes program hfits hs.memory
    font := fun a ha => (Memory.read_writeBytes_outside _ _ _ _ (.inl (by simp only [Config.programBase]; omega))).trans
      (hs.font a ha)
    pc := hs.pc
    stack := hs.stack
    record := hs.record }

/-- Settles O4: STEP by O3, LOAD and RESET by the lemmas above; the rest does not reach the invariant's cells. -/
theorem transactionsKeepInvariant : Obligations.TransactionsKeepInvariant := by
  unfold Obligations.TransactionsKeepInvariant
  intro x c c' r hc h
  cases x with
  | step =>
    simp only [transact, transactWith] at h
    split at h <;> cases h
    exact stepKeepsInvariant _ _ hc ‹_›
  | tick | setKeys key =>
    cases h
    exact hc.congr rfl rfl rfl rfl
  | readFb | soundOn | readFault =>
    cases h
    exact hc
  | load program =>
    simp only [transact, transactWith] at h
    split at h
    · cases h
    · split at h <;> cases h
      · exact loadProgram_keeps_inv hc ‹_›
      · exact hc
  | reset =>
    cases h
    exact Inv.congr resetSatisfiesInvariant rfl rfl rfl rfl

end Sys2Proof.Machine
end

section
/-! The draw of CXNN, jumps, skips, calls and returns (41_register_alu.md R141, 42_control_flow.md). -/

namespace Sys2Proof.Machine

/-- The word of a well-formed instruction lies in its row and decodes to it. -/
theorem encodedIn_of_wf {i : Instr} (hwf : i.wf = true) :
    EncodedIn (rowOf .ignore i).pattern (rowOf .ignore i).mask i :=
  encodedIn_of_decode hwf (decodeUnder_encode _ hwf)

/-- Taking a draw stays within any frame that may change the draw counter. -/
theorem Frame.countDraw {may : Cell → Prop} {s t : State} (h : Frame may s t) (hdraws : may .draws) :
    Frame may s t.countDraw := by
  intro c hc
  cases c with
  | draws => exact absurd hdraws hc
  | _ => exact h _ hc

/-- Settles O31: one write after a draw; masking with 0 and 0xFF are the two ends. -/
theorem randomByteIsMasked : Obligations.RandomByteIsMasked := by
  unfold Obligations.RandomByteIsMasked
  intro s x nn
  have hframe := (((Frame.refl (fun c => c = .v x ∨ c = .draws) s).countDraw (.inr rfl)).setV (.inl rfl)
    (drawnByte s &&& nn)).setPc (s.pc + 2)
  have hread : (s.countDraw.setV x (drawnByte s &&& nn)).v[x] = Config.freeByte s.draws &&& nn :=
    State.setV_read_same _ _ _
  refine ⟨encodedIn_of_wf rfl, _, rfl, rfl, hframe, hread, rfl, ?zero, ?all⟩
  case zero =>
    rintro rfl
    exact hread.trans BitVec.and_zero
  case all =>
    rintro rfl
    exact hread.trans BitVec.and_allOnes

/-! ## Setting PC -/

section
variable {i : Instr} {s : State}

/-- An instruction that sets PC and nothing else. -/
theorem completesAt_setPc {w : Word} {target : Nat} (h : exec i s = .next (s.setPc w)) (hw : w.toNat = target) :
    CompletesAt target noCell i s FaultsAtNextFetch :=
  ⟨_, h, hw, (Frame.refl noCell s).setPc w, faultsAtNextFetch _⟩

/-- A skip advances by 4 or by 2. -/
theorem completesAt_skipIf {c : Bool} {P : Prop} [Decidable P] (hpc : s.pc.toNat ≤ 0xFFE) (hc : c = true ↔ P)
    (h : exec i s = skipIf c s) :
    CompletesAt (if P then s.pc.toNat + 4 else s.pc.toNat + 2) noCell i s FaultsAtNextFetch := by
  refine completesAt_setPc h ?_
  by_cases hP : P
  · rw [if_pos (hc.mpr hP), if_pos hP, pc_add_four_toNat hpc]
  · rw [if_neg (hP ∘ hc.mp), if_neg hP, pc_add_two_toNat hpc]

theorem CompletesAt.congr_target {may : Cell → Prop} {post : State → Prop} {n m : Nat} (h : CompletesAt n may i s post)
    (hnm : n = m) : CompletesAt m may i s post := hnm ▸ h

end

/-- Settles O33: a 12-bit target fits PC, and setting PC to what it holds changes nothing. -/
theorem jumpGoesToItsAddress : Obligations.JumpGoesToItsAddress := by
  unfold Obligations.JumpGoesToItsAddress
  intro s addr haddr
  have hexec : exec (.jp addr) s = .next (s.setPc (BitVec.ofNat 16 addr)) := rfl
  refine ⟨encodedIn_of_wf (decide_eq_true haddr), completesAt_setPc hexec (ofNat_toNat_of_le (by omega)), ?_⟩
  rintro rfl
  rw [hexec, BitVec.ofNat_toNat, BitVec.setWidth_eq]
  rfl

/-- Settles O34: the sum is at most 0x10FE, so it fits PC. -/
theorem indexedJumpAddsV0 : Obligations.IndexedJumpAddsV0 := by
  unfold Obligations.IndexedJumpAddsV0
  intro s addr haddr
  have hv0 := nn_le s.v[(0 : Reg)]
  exact ⟨encodedIn_of_wf (decide_eq_true haddr), completesAt_setPc rfl (ofNat_toNat_of_le (by omega))⟩

/-- Settles O35: the comparison decides the skip. -/
theorem immediateSkipsAdvanceByTwoOrFour : Obligations.ImmediateSkipsAdvanceByTwoOrFour := by
  unfold Obligations.ImmediateSkipsAdvanceByTwoOrFour
  exact fun s x nn hpc => ⟨⟨encodedIn_of_wf rfl, completesAt_skipIf hpc beq_iff_eq rfl⟩,
    ⟨encodedIn_of_wf rfl, completesAt_skipIf hpc bne_iff_ne rfl⟩⟩

/-- Settles O36: the comparison decides; a register equals itself. -/
theorem registerSkipsAdvanceByTwoOrFour : Obligations.RegisterSkipsAdvanceByTwoOrFour := by
  unfold Obligations.RegisterSkipsAdvanceByTwoOrFour
  intro s x y hpc
  have hse : CompletesAt (if s.v[x] = s.v[y] then s.pc.toNat + 4 else s.pc.toNat + 2) noCell (.seReg x y) s
      FaultsAtNextFetch := completesAt_skipIf hpc beq_iff_eq rfl
  have hsne : CompletesAt (if s.v[x] ≠ s.v[y] then s.pc.toNat + 4 else s.pc.toNat + 2) noCell (.sneReg x y) s
      FaultsAtNextFetch := completesAt_skipIf hpc bne_iff_ne rfl
  have hnibble (p : Config.Skip59LowNibble) {n : Nat} (hn : n ≤ 0xF) := decodeUnder_skip59 p x y hn
  have hfault {n : Nat} (hn : n ≠ 0) : ¬ (Config.Skip59LowNibble.fault = .ignore ∨ n = 0) :=
    not_or.mpr ⟨nofun, hn⟩
  refine ⟨⟨encodedIn_of_wf rfl, fun n hn => ?_, fun n hn hne => ?_, hse⟩,
    ⟨encodedIn_of_wf rfl, fun n hn => ?_, fun n hn hne => ?_, hsne⟩, fun hxy => ⟨?_, ?_⟩⟩
  · exact (hnibble .ignore hn).1.trans (if_pos (.inl rfl))
  · exact (hnibble .fault hn).1.trans (if_neg (hfault hne))
  · exact (hnibble .ignore hn).2.trans (if_pos (.inl rfl))
  · exact (hnibble .fault hn).2.trans (if_neg (hfault hne))
  · subst hxy
    exact hse.congr_target (if_pos rfl)
  · subst hxy
    exact hsne.congr_target (if_neg (not_not.mpr rfl))

/-! ## Calls and returns -/

/-- Writing the stack and SP stays within a frame that may change the cells that differ. -/
theorem Frame.setStack {may : Cell → Prop} {s t : State} {k : Vector Word 16} {n : Fin 17} (h : Frame may s t)
    (hsp : may .sp ∨ n = t.sp) (hk : ∀ j : Fin 16, may (.stack j) ∨ k[j] = t.stack[j]) :
    Frame may s (t.setStack k n) := by
  intro c hc
  cases c with
  | sp => exact (hsp.resolve_left hc).trans (h .sp hc)
  | stack j => exact ((hk j).resolve_left hc).trans (h (.stack j) hc)
  | _ => exact h _ hc

/-- A push changes the cell at SP alone. -/
theorem stack_set_of_ne {k : Vector Word 16} {n : Nat} (hn : n < 16) (w : Word) {j : Fin 16} (hj : j.val ≠ n) :
    (k.set n w)[j] = k[j] :=
  Vector.getElem_set_ne hn j.isLt hj.symm

theorem exec_call_of_lt {s : State} (addr : Nat) (h : s.sp.val < 16) :
    exec (.call addr) s = .next
      ((s.setStack (s.stack.set s.sp.val s.pc h) ⟨s.sp.val + 1, by omega⟩).setPc (BitVec.ofNat 16 addr)) :=
  (execCall_eq addr s).trans (dif_pos h)

theorem exec_ret_of_pos {s : State} {k : Nat} (h : s.sp.val = k + 1) :
    exec .ret s = .next ((s.setStack s.stack ⟨k, by omega⟩).setPc
      (BitVec.ofNat 16 ((s.stack[k]'(by omega)).toNat + 2))) := by
  have hne : ¬ s.sp.val = 0 := by omega
  have hk : s.sp.val - 1 = k := by omega
  subst hk
  exact (execRet_eq s).trans (if_neg hne)

/-- Settles O37: below 16 entries the push is of PC, at 16 the fault. -/
theorem callPushesItsOwnAddress : Obligations.CallPushesItsOwnAddress := by
  unfold Obligations.CallPushesItsOwnAddress
  intro s addr haddr
  refine ⟨encodedIn_of_wf (decide_eq_true haddr), fun hsp => ?push, fun hsp => ?full⟩
  case push =>
    refine ⟨_, exec_call_of_lt addr hsp, ofNat_toNat_of_le (by omega),
      ((Frame.refl _ s).setStack (.inl (.inl rfl)) fun j => ?_).setPc _, rfl, fun k hk => ?_, faultsAtNextFetch _⟩
    · by_cases hj : j.val = s.sp.val
      · exact .inl (.inr ⟨j, hj, rfl⟩)
      · exact .inr (stack_set_of_ne hsp s.pc hj)
    · simp only [State.setPc_stack, State.setStack_stack, Fin.getElem_fin, hk, Vector.getElem_set_self]
  case full => exact (execCall_eq addr s).trans (dif_neg (by omega))

/-- Settles O38: with an entry held the pop, with none the fault. -/
theorem returnGoesPastTheCall : Obligations.ReturnGoesPastTheCall := by
  unfold Obligations.ReturnGoesPastTheCall
  intro s
  refine ⟨rfl, encodedIn_of_wf rfl, fun k hk hpopped => ?pop, fun hsp => ?empty⟩
  case pop =>
    exact ⟨_, exec_ret_of_pos hk, ofNat_toNat_of_le (Nat.add_le_add hpopped (by decide : 2 ≤ 0x100)),
      ((Frame.refl (· = .sp) s).setStack (.inl rfl) fun _ => .inr rfl).setPc _, rfl, faultsAtNextFetch _⟩
  case empty => exact (execRet_eq s).trans (if_pos hsp)

/-- Settles O39: the return pops what the call pushed. -/
theorem callThenReturnComesBack : Obligations.CallThenReturnComesBack := by
  unfold Obligations.CallThenReturnComesBack
  intro s addr hsp
  refine ⟨_, _, exec_call_of_lt addr hsp, exec_ret_of_pos rfl, ?pc, rfl, ?frame⟩
  case pc =>
    apply BitVec.eq_of_toNat_eq
    simp only [State.setPc_pc, State.setPc_stack, State.setStack_stack, Vector.getElem_set_self, BitVec.toNat_ofNat,
      BitVec.toNat_add]
    rfl
  case frame =>
    intro c hc
    cases c with
    | stack j =>
      have hj : j.val ≠ s.sp.val := fun hj => hc ⟨j, hj, rfl⟩
      exact stack_set_of_ne hsp s.pc hj
    | _ => rfl

end Sys2Proof.Machine
end

section
/-! The index register and the memory transfers (43_index_memory.md). A store that passes its check is one `writeBytes`,
so its frame and the bytes it leaves are said once. -/

namespace Sys2Proof.Machine

/-! ## The index register -/

theorem indexSum_ofNat_toNat (i : Word) (b : Byte) :
    (BitVec.ofNat 16 (indexSum i b) : Word).toNat = (i.toNat + b.toNat) % 65536 :=
  BitVec.toNat_ofNat _ _

/-- FX1E under FlagAbove0xFFF: I, then VF (R191). -/
theorem execAddIUnder_flagAbove0xFFF (x : Reg) (s : State) :
    ∃ t, execAddIUnder .flagAbove0xFFF x s = .next t ∧ t.pc = s.pc + 2 ∧ Frame (fun c => c = .i ∨ c = .v 15) s t ∧
      t.i.toNat = (s.i.toNat + s.v[x].toNat) % 65536 ∧
      t.v[(15 : Reg)].toNat = if s.i.toNat + s.v[x].toNat > 0xFFF then 1 else 0 := by
  have hframe := Frame.refl (fun c => c = .i ∨ c = .v 15) s
  refine ⟨_, rfl, rfl, ((hframe.setI (.inl rfl) _).setV (.inr rfl) _).setPc _, indexSum_ofNat_toNat _ _, ?_⟩
  calc (State.setV _ 15 _).v[(15 : Reg)].toNat
    _ = (flagByte (indexOverflow (indexSum s.i s.v[x]))).toNat := congrArg BitVec.toNat (State.setV_read_same _ _ _)
    _ = if s.i.toNat + s.v[x].toNat > 0xFFF then 1 else 0 :=
      (flagByte_toNat _).trans (if_congr decide_eq_true_iff rfl rfl)

/-- Settles O41: I is written, and under FlagAbove0xFFF VF after it. -/
theorem addToIndexUnderEachPolicy : Obligations.AddToIndexUnderEachPolicy := by
  unfold Obligations.AddToIndexUnderEachPolicy
  intro p s x
  have hexec : exec (.addI x) s = advance (s.setI (BitVec.ofNat 16 (indexSum s.i s.v[x]))) := rfl
  refine ⟨encodedIn_of_wf rfl, (completesWithin_setI hexec).imp fun u hu => ?sum, fun hp => ?unchanged,
    fun hp => ?flag⟩
  case sum => exact hu ▸ indexSum_ofNat_toNat _ _
  case unchanged =>
    rw [execUnder, hp]
    rfl
  case flag =>
    rw [execUnder, hp]
    exact execAddIUnder_flagAbove0xFFF x s

theorem glyphAddr_toNat (b : Byte) : (glyphAddr b).toNat = 5 * (b.toNat % 16) := by
  have hnibble : (b &&& 0xF).toNat = b.toNat % 16 := by
    rw [BitVec.toNat_and]
    exact Nat.and_two_pow_sub_one_eq_mod b.toNat 4
  rw [glyphAddr, hnibble, BitVec.toNat_ofNat]
  simp only [Config.fontBase, Config.glyphBytes]
  omega

/-- Settles O42: the font clause of the invariant gives the rows. -/
theorem glyphAddressPointsAtItsRows : Obligations.GlyphAddressPointsAtItsRows := by
  unfold Obligations.GlyphAddressPointsAtItsRows
  intro s x
  have haddr := glyphAddr_toNat s.v[x]
  refine ⟨encodedIn_of_wf rfl, (s.setI (glyphAddr s.v[x])).setPc (s.pc + 2), rfl, rfl,
    ((Frame.refl (· = .i) s).setI rfl _).setPc _, haddr, fun hinv r hr => ?_⟩
  simp only [State.setPc_mem, State.setI_mem, State.setPc_i, State.setI_i, haddr]
  exact hinv.font _ (by omega)

/-! ## Stores (20_memory.md R60) -/

theorem Memory.read_writeBytes_at (m : Memory) (a : Nat) (bs : List Byte) (k : Nat) (hk : k < bs.length) :
    (m.writeBytes a bs).read (a + k) = bs[k] := by
  rw [Memory.read_writeBytes, dif_pos ⟨Nat.le_add_right a k, Nat.add_lt_add_left hk a⟩]
  simp only [Nat.add_sub_cancel_left]

/-- Writing bytes stays within the frame of their addresses. -/
theorem frame_writeBytes (s : State) (a : Nat) (bs : List Byte) :
    Frame (bytesFrom a bs.length) s (s.setMem (s.mem.writeBytes a bs)) := by
  intro c hc
  cases c with
  | mem b =>
    have hout : ¬ (a ≤ b ∧ b < a + bs.length) := hc
    exact Memory.read_writeBytes_outside _ _ _ _ (by omega)
  | _ => rfl

/-- FX33 where the check passes: the three digits (R193). -/
theorem execLdBUnder_stores {p : Config.FontWritePolicy} {s : State} (x : Reg)
    (hfont : ¬ (p = .fault ∧ s.i.toNat ≤ 0x4F)) (hrange : s.i.toNat + 2 ≤ 0xFFF) :
    ∃ t, execLdBUnder p x s = .next t ∧ t.pc = s.pc + 2 ∧ Frame (bytesFrom s.i.toNat 3) s t ∧
      (t.mem.read s.i.toNat).toNat = s.v[x].toNat / 100 ∧
      (t.mem.read (s.i.toNat + 1)).toNat = s.v[x].toNat / 10 % 10 ∧
      (t.mem.read (s.i.toNat + 2)).toNat = s.v[x].toNat % 10 := by
  have hx := nn_le s.v[x]
  have hexec := execLdBUnder_eq p x s
  rw [if_neg hfont, if_pos (by omega)] at hexec
  have hdigit (k : Nat) (hk : k < 3) :=
    Memory.read_writeBytes_at s.mem s.i.toNat (bcdDigits s.v[x]) k hk
  refine ⟨_, hexec, rfl, (frame_writeBytes s s.i.toNat (bcdDigits s.v[x])).setPc _, ?_, ?_, ?_⟩
  · exact (congrArg BitVec.toNat (hdigit 0 (by decide))).trans (by simp [bcdDigits]; omega)
  · exact (congrArg BitVec.toNat (hdigit 1 (by decide))).trans (by simp [bcdDigits]; omega)
  · exact (congrArg BitVec.toNat (hdigit 2 (by decide))).trans (by simp [bcdDigits]; omega)

/-- FX55 where the check passes: V0..VX (R194). -/
theorem execSaveRegsUnder_stores {p : Config.FontWritePolicy} {s : State} (x : Reg)
    (hfont : ¬ (p = .fault ∧ s.i.toNat ≤ 0x4F)) (hrange : s.i.toNat + x.val ≤ 0xFFF) :
    ∃ t, execSaveRegsUnder p x s = .next t ∧ t.pc = s.pc + 2 ∧ Frame (bytesFrom s.i.toNat (x.val + 1)) s t ∧
      ∀ k : Reg, k ≤ x → t.mem.read (s.i.toNat + k.val) = s.v[k] := by
  have hexec := execSaveRegsUnder_eq p x s
  rw [if_neg hfont, if_pos (by omega)] at hexec
  have hlen := regsUpTo_length s.v x
  have hframe := (frame_writeBytes s s.i.toNat (regsUpTo s.v x)).setPc (s.pc + 2)
  rw [hlen] at hframe
  refine ⟨_, hexec, rfl, hframe, fun k hk => ?_⟩
  have hk' : k.val < (regsUpTo s.v x).length := hlen ▸ Nat.lt_succ_of_le hk
  exact (Memory.read_writeBytes_at _ _ _ k.val hk').trans (regsUpTo_read s.v x k.val hk')

/-- Settles O43: the check passes from 0x050 to 0xFFD; below it finds I, above it the first address past 0xFFF. -/
theorem decimalDigitsAreStored : Obligations.DecimalDigitsAreStored := by
  unfold Obligations.DecimalDigitsAreStored
  intro s x
  have hexec := execLdBUnder_eq .fault x s
  refine ⟨encodedIn_of_wf rfl, fun hfont hrange => execLdBUnder_stores x (fun h => by omega) hrange,
    fun hpast => ?past, fun hfont => ?font⟩
  case past => exact hexec.trans ((if_neg fun h => by omega).trans (if_neg (by omega)))
  case font => exact hexec.trans (if_pos ⟨rfl, hfont⟩)

/-- Settles O44: as for FX33, with X + 1 bytes. -/
theorem registerDumpStoresV0ToVX : Obligations.RegisterDumpStoresV0ToVX := by
  unfold Obligations.RegisterDumpStoresV0ToVX
  intro s x
  have hexec := execSaveRegsUnder_eq .fault x s
  have hx := x.isLt
  refine ⟨encodedIn_of_wf rfl, fun hfont hrange => execSaveRegsUnder_stores x (fun h => by omega) hrange,
    fun hpast => ?past, fun hfont => ?font⟩
  case past => exact hexec.trans ((if_neg fun h => by omega).trans (if_neg (by omega)))
  case font => exact hexec.trans (if_pos ⟨rfl, hfont⟩)

/-- Settles O46: Allow drops the font region's check. -/
theorem storesReachTheFontUnderAllow : Obligations.StoresReachTheFontUnderAllow := by
  unfold Obligations.StoresReachTheFontUnderAllow
  intro p s x hp
  have hfont : ¬ (p.fontWrite = .fault ∧ s.i.toNat ≤ 0x4F) := by
    rw [hp]
    exact fun h => nomatch h.1
  exact ⟨execLdBUnder_stores x hfont, execSaveRegsUnder_stores x hfont⟩

/-- Settles O45: only V0..VX are filled. -/
theorem registerLoadReadsV0ToVX : Obligations.RegisterLoadReadsV0ToVX := by
  unfold Obligations.RegisterLoadReadsV0ToVX
  intro s x
  refine ⟨encodedIn_of_wf rfl, fun hrange => ?load, fun hpast => ?past⟩
  case load =>
    refine ⟨_, (execLoadRegs_eq x s).trans (if_pos (by omega)), rfl, ?_, fun k hk => ?_⟩
    · intro c hc
      cases c with
      | v r =>
        have hr : ¬ r.val < x.val + 1 := fun hr => hc ⟨r, Nat.le_of_lt_succ hr, rfl⟩
        exact (fillRegs_read _ _ s.v r).trans (if_neg hr)
      | _ => rfl
    · exact (fillRegs_read _ _ s.v k).trans (if_pos (Nat.lt_succ_of_le hk))
  case past => exact (execLoadRegs_eq x s).trans (if_neg (by omega))

/-- Settles O47: the two bytes at the next PC are V0 and V1. -/
theorem storeIsSeenByTheNextFetch : Obligations.StoreIsSeenByTheNextFetch := by
  unfold Obligations.StoreIsSeenByTheNextFetch
  intro s x hx hfont hrange hi
  obtain ⟨t, hexec, hpc, -, hbytes⟩ := (registerDumpStoresV0ToVX s x).2.1 hfont hrange
  have hpc' : t.pc.toNat = s.i.toNat := by rw [hpc, hi]; bv_omega
  have hhi : t.mem.read s.i.toNat = s.v[(0 : Reg)] := hbytes 0 (Fin.zero_le x)
  have hlo : t.mem.read (s.i.toNat + 1) = s.v[(1 : Reg)] := hbytes 1 hx
  exact ⟨t, hexec, hpc', by rw [opcodeAtPc, hpc', hhi, hlo]⟩

end Sys2Proof.Machine
end

section
/-! Ticks and the keypad (44_timers.md, 45_input.md). -/

namespace Sys2Proof.Machine

/-! ## Ticks (44_timers.md R223) -/

theorem tick_iterate_dt (n : Nat) (s : State) : (tick^[n] s).dt = countDown^[n] s.dt :=
  have hdt : Function.Semiconj State.dt tick countDown := fun _ => rfl
  hdt.iterate_right n s

/-- Ticks change the timers alone. -/
theorem frame_tick_iterate (n : Nat) (s : State) :
    (tick^[n] s).pc = s.pc ∧ Frame (fun c => c = .dt ∨ c = .st) s (tick^[n] s) := by
  induction n with
  | zero => exact ⟨rfl, Frame.refl _ s⟩
  | succ n ih =>
    rw [Function.iterate_succ_apply']
    exact ⟨ih.1, (ih.2.setDt (.inl rfl) _).setSt (.inr rfl) _⟩

/-- Settles O49: each timer is counted down n times. -/
theorem ticksCountDownBothTimers : Obligations.TicksCountDownBothTimers := by
  unfold Obligations.TicksCountDownBothTimers
  intro n s
  obtain ⟨hpc, hframe⟩ := frame_tick_iterate n s
  refine ⟨?_, ?_, hpc, hframe, soundOn_tick_iterate_iff n s⟩
  · rw [tick_iterate_dt, countDown_iterate_toNat]
  · rw [tick_iterate_st, countDown_iterate_toNat]

/-! ## Key skips (R240, R241, R243) -/

section
variable {p : Config.KeyIndexPolicy} {x : Reg} {s : State} {k : Fin 16}

theorem keyIndex_eq_some_of_toNat_eq {b : Byte} (h : b.toNat = k.val) : keyIndex p b = some k := by
  rw [keyIndex_of_le (by omega)]
  exact congrArg some (Fin.ext h)

theorem keyIndex_lowNibble_of_mod_eq {b : Byte} (h : b.toNat % 16 = k.val) : keyIndex .lowNibble b = some k := by
  rw [keyIndex_lowNibble]
  exact congrArg some (Fin.ext h)

theorem execSkpUnder_of_key (h : keyIndex p s.v[x] = some k) : execSkpUnder p x s = skipIf s.key[k] s := by
  simp only [execSkpUnder, State.getV_eq, h]

theorem execSknpUnder_of_key (h : keyIndex p s.v[x] = some k) : execSknpUnder p x s = skipIf (!s.key[k]) s := by
  simp only [execSknpUnder, State.getV_eq, h]

end

/-- Settles O50: the key index decides between the skip and the fault. -/
theorem keySkipsFollowTheKeypad : Obligations.KeySkipsFollowTheKeypad := by
  unfold Obligations.KeySkipsFollowTheKeypad
  intro s x k hpc
  refine ⟨encodedIn_of_wf rfl, encodedIn_of_wf rfl, fun hk => ⟨?skp, ?sknp⟩, fun habove => ⟨?skpFault, ?sknpFault,
    fun p hp hk => ⟨?skpLow, ?sknpLow⟩⟩⟩
  case skp => exact completesAt_skipIf hpc Iff.rfl (execSkpUnder_of_key (keyIndex_eq_some_of_toNat_eq hk))
  case sknp =>
    have hexec : exec (.sknp x) s = skipIf (!s.key[k]) s := execSknpUnder_of_key (keyIndex_eq_some_of_toNat_eq hk)
    have hreleased : (!s.key[k]) = true ↔ ¬ s.key[k] = true := by rw [Bool.not_eq_true', Bool.not_eq_true]
    exact (completesAt_skipIf hpc hreleased hexec).congr_target (ite_not ..)
  case skpFault =>
    simp only [FaultsWith, exec, execSkp, execSkpUnder, State.getV_eq, policy_keyIndex, keyIndex_fault habove]
    rfl
  case sknpFault =>
    simp only [FaultsWith, exec, execSknp, execSknpUnder, State.getV_eq, policy_keyIndex, keyIndex_fault habove]
    rfl
  case skpLow =>
    rw [execUnder, hp, execSkpUnder_of_key (keyIndex_lowNibble_of_mod_eq hk), skipIf_eq]
  case sknpLow =>
    rw [execUnder, hp, execSknpUnder_of_key (keyIndex_lowNibble_of_mod_eq hk), skipIf_eq]
    cases s.key[k] <;> rfl

/-! ## FX0A (R242) -/

theorem setV_key_read (s : State) (x : Reg) (k : Fin 16) : ((s.setV x (BitVec.ofNat 8 k.val)).v[x]).toNat = k.val := by
  rw [State.setV_read_same, BitVec.toNat_ofNat]
  omega

/-- With a key pressed FX0A completes with a pressed key, drawn where there are several. -/
theorem exec_ldVxK_of_key {s : State} (x : Reg) (h : ∃ k : Fin 16, s.key[k] = true) :
    CompletesWithin (fun c => c = .v x ∨ c = .draws) (.ldVxK x) s
      (fun t => ∃ k : Fin 16, s.key[k] = true ∧ t.v[x].toNat = k.val) := by
  have hframe := Frame.refl (fun c => c = .v x ∨ c = .draws) s
  match hkeys : pressedKeys s.key with
  | [] =>
    obtain ⟨k, hk⟩ := h
    rw [(pressedKeys_eq_nil_iff s.key).mp hkeys k] at hk
    cases hk
  | [k] =>
    have hk : s.key[k] = true := (mem_pressedKeys _ _).mp (hkeys ▸ List.mem_cons_self)
    have hexec : exec (.ldVxK x) s = advance (s.setV x (BitVec.ofNat 8 k.val)) := by
      simp only [exec, execLdVxK, hkeys]
    exact ⟨_, hexec, rfl, (hframe.setV (.inl rfl) _).setPc _, k, hk, setV_key_read s x k⟩
  | j :: l :: ks =>
    have hk : s.key[drawnKey s j (l :: ks)] = true := (mem_pressedKeys _ _).mp (hkeys ▸ drawnKey_mem s j (l :: ks))
    have hexec : exec (.ldVxK x) s =
        advance (s.countDraw.setV x (BitVec.ofNat 8 (drawnKey s j (l :: ks)).val)) := by
      simp only [exec, execLdVxK, hkeys]
    exact ⟨_, hexec, rfl, ((hframe.countDraw (.inr rfl)).setV (.inl rfl) _).setPc _, _, hk, setV_key_read _ x _⟩

theorem pressedKeys_eq_singleton {key : Keypad} {k : Fin 16} (h : ∀ j : Fin 16, key[j] = true ↔ j = k) :
    pressedKeys key = [k] := by
  have hnodup : (pressedKeys key).Nodup := List.Nodup.filter _ (by decide : allKeys.Nodup)
  refine List.perm_singleton.mp ((List.perm_ext_iff_of_nodup hnodup (List.nodup_singleton k)).mpr fun j => ?_)
  rw [mem_pressedKeys, h, List.mem_singleton]

/-- Settles O51: FX0A turns on the list of pressed keys. -/
theorem keyWaitTakesAPressedKey : Obligations.KeyWaitTakesAPressedKey := by
  unfold Obligations.KeyWaitTakesAPressedKey
  intro s x
  refine ⟨encodedIn_of_wf rfl, exec_ldVxK_of_no_key x, exec_ldVxK_of_key x, fun k hk => ?_⟩
  have hexec : exec (.ldVxK x) s = advance (s.setV x (BitVec.ofNat 8 k.val)) := by
    simp only [exec, execLdVxK, pressedKeys_eq_singleton hk]
  exact ⟨_, hexec, rfl, ((Frame.refl (· = .v x) s).setV rfl _).setPc _, setV_key_read s x k⟩

/-- Settles O52: waiting turns on the keypad alone, which the instruction's word does not depend on. -/
theorem waitingEndsAtTheFirstKey : Obligations.WaitingEndsAtTheFirstKey := by
  unfold Obligations.WaitingEndsAtTheFirstKey
  intro s key k hwait hk
  obtain ⟨⟨x, hnext⟩, hkeys⟩ := hwait
  have hnext' : NextIs (.ldVxK x) (s.setKeys key) := hnext
  have hsome : ∃ k : Fin 16, (s.setKeys key).key[k] = true := ⟨k, hk⟩
  obtain ⟨t, hexec, hpc, hframe, -⟩ := exec_ldVxK_of_key x hsome
  refine ⟨?stays, ?waiting, t, (step_of_nextIs hnext').trans hexec, hpc, ?retired⟩
  case stays => rw [step_of_nextIs hnext, exec_ldVxK_of_no_key x hkeys]
  case waiting => rw [stepReport_of_nextIs hnext hnext.1, if_pos ((waiting_iff hnext).mp ⟨⟨x, hnext⟩, hkeys⟩)]
  case retired =>
    have hfault : t.fault = none := (hframe .fault (by simp)).trans hnext'.1
    have hnot : ¬ Waiting (s.setKeys key) := fun hw => by
      have hreleased : key[k] = false := hw.2 k
      rw [hk] at hreleased
      cases hreleased
    rw [stepReport_of_nextIs hnext' hfault, if_neg fun hc => hnot ((waiting_iff hnext').mpr hc)]

end Sys2Proof.Machine
end

section
/-! The draw (46_draw.md). What one draw does is said once, for both edge policies, in the terms of `SpriteSets`. -/

namespace Sys2Proof.Machine

/-- The pixels a draw flips are those of the sprite's set bits. -/
theorem mem_drawnPixels (p : Config.DrawEdgePolicy) (x y : Reg) (n : Nat) (s : State) (q : Pixel) :
    q ∈ drawnPixels p x y n s ↔ SpriteSets p x y n s q := by
  simp only [drawnPixels, mem_spritePixels, place_eq_some, indexed_zero, State.getV_eq, spriteBit]
  cases p <;> rfl

/-- What a draw from s to t does: the sprite's pixels flip, VF says whether one of them was 1, and nothing else changes
(R260, R263). -/
structure Drawn (p : Config.DrawEdgePolicy) (x y : Reg) (n : Nat) (s t : State) : Prop where
  pc : t.pc = s.pc + 2
  frame : Frame (fun c => c = .v 15 ∨ ∃ q, SpriteSets p x y n s q ∧ c = .pixel q) s t
  flips : ∀ q, SpriteSets p x y n s q → pixelAt t.fb q = !pixelAt s.fb q
  collision : (∃ q, SpriteSets p x y n s q ∧ pixelAt s.fb q = true) → t.v[(15 : Reg)] = 1
  noCollision : (¬ ∃ q, SpriteSets p x y n s q ∧ pixelAt s.fb q = true) → t.v[(15 : Reg)] = 0

/-- The state a draw of the listed pixels leads to. -/
def afterDraw (qs : List Pixel) (s : State) : State :=
  ((s.setFb (blit qs (s.fb, false)).1).setFlag (blit qs (s.fb, false)).2).setPc (s.pc + 2)

theorem afterDraw_vf (qs : List Pixel) (s : State) :
    (afterDraw qs s).v[(15 : Reg)] = flagByte (blit qs (s.fb, false)).2 :=
  State.setV_read_same _ _ _

/-- Blitting the sprite's pixels, each listed once, is a draw. -/
theorem drawn_afterDraw (p : Config.DrawEdgePolicy) (x y : Reg) {n : Nat} (s : State) (hn : n ≤ 0xF) :
    Drawn p x y n s (afterDraw (drawnPixels p x y n s) s) := by
  have hnodup := drawnPixels_nodup p x y n s hn
  have hpixel (q : Pixel) : pixelAt (afterDraw (drawnPixels p x y n s) s).fb q =
      (pixelAt s.fb q ^^ decide (q ∈ drawnPixels p x y n s)) := blit_pixel _ hnodup s.fb false q
  have hhit : (blit (drawnPixels p x y n s) (s.fb, false)).2 = true ↔
      ∃ q, SpriteSets p x y n s q ∧ pixelAt s.fb q = true := by
    simp only [blit_collision _ hnodup, Bool.false_or, List.any_eq_true, mem_drawnPixels]
  refine ⟨rfl, ?frame, ?flips, fun hit => ?hit, fun miss => ?miss⟩
  case frame =>
    intro c hc
    cases c with
    | pixel q =>
      have hq : q ∉ drawnPixels p x y n s := fun hq => hc (.inr ⟨q, (mem_drawnPixels ..).mp hq, rfl⟩)
      exact (hpixel q).trans (by rw [decide_eq_false hq, Bool.xor_false])
    | v r =>
      have hr : r ≠ 15 := fun hr => hc (.inl (congrArg Cell.v hr))
      exact State.setV_read_ne _ _ _ _ hr
    | _ => rfl
  case flips =>
    intro q hq
    rw [hpixel, decide_eq_true ((mem_drawnPixels ..).mpr hq), Bool.xor_true]
  case hit => rw [afterDraw_vf, hhit.mpr hit]; rfl
  case miss => rw [afterDraw_vf, Bool.eq_false_iff.mpr fun h => miss (hhit.mp h)]; rfl

/-- A draw whose rows exist completes (R260, R264). -/
theorem execDrwUnder_drawn (p : Config.DrawEdgePolicy) (x y : Reg) {n : Nat} {s : State} (hn : n ≤ 0xF)
    (hrange : n = 0 ∨ s.i.toNat + n ≤ 0x1000) : ∃ t, execDrwUnder p x y n s = .next t ∧ Drawn p x y n s t :=
  ⟨_, (execDrwUnder_eq p x y n s).trans (if_pos hrange), drawn_afterDraw p x y s hn⟩

/-- Settles O53: the check passes where the rows exist and otherwise finds the first address past 0xFFF. -/
theorem drawFlipsExactlyTheSprite : Obligations.DrawFlipsExactlyTheSprite := by
  unfold Obligations.DrawFlipsExactlyTheSprite
  intro s x y n hn
  refine ⟨encodedIn_of_wf (decide_eq_true hn), fun hrange => ?drawn, fun hne hpast => ?past⟩
  case drawn =>
    obtain ⟨t, hexec, hdrawn⟩ := execDrwUnder_drawn .wrap x y hn hrange
    exact ⟨t, hexec, hdrawn.pc, hdrawn.frame, hdrawn.flips, hdrawn.collision, hdrawn.noCollision⟩
  case past => exact (execDrwUnder_eq .wrap x y n s).trans (if_neg (by omega))

/-- Settles O54: the draw's own statement at Clip. -/
theorem clippedDrawDropsPixelsPastTheEdges : Obligations.ClippedDrawDropsPixelsPastTheEdges := by
  unfold Obligations.ClippedDrawDropsPixelsPastTheEdges
  intro p s x y n hp hn hrange
  obtain ⟨t, hexec, hdrawn⟩ := execDrwUnder_drawn p.drawEdge x y hn hrange
  rw [hp] at hdrawn
  exact ⟨t, hexec, hdrawn.pc, hdrawn.frame, hdrawn.flips, hdrawn.collision, hdrawn.noCollision⟩

/-! ## Drawing twice -/

section
variable {p : Config.DrawEdgePolicy} {x y : Reg} {n : Nat} {s t u : State}

theorem Drawn.mem_read (h : Drawn p x y n s t) (a : Nat) : t.mem.read a = s.mem.read a :=
  h.frame (.mem a) (by simp)

theorem Drawn.i (h : Drawn p x y n s t) : t.i = s.i :=
  h.frame .i (by simp)

theorem Drawn.pixel_outside (h : Drawn p x y n s t) {q : Pixel} (hq : ¬ SpriteSets p x y n s q) :
    pixelAt t.fb q = pixelAt s.fb q :=
  h.frame (.pixel q) (by rintro (hc | ⟨q', hq', hc⟩) <;> cases hc; exact hq hq')

/-- A draw moves neither I nor memory, so the same coordinates are the same sprite. -/
theorem Drawn.spriteSets_iff (h : Drawn p x y n s t) (hx : t.v[x].toNat % 64 = s.v[x].toNat % 64)
    (hy : t.v[y].toNat % 32 = s.v[y].toNat % 32) (q : Pixel) : SpriteSets p x y n t q ↔ SpriteSets p x y n s q := by
  simp only [SpriteSets, h.mem_read, h.i, hx, hy]

theorem Drawn.vf_iff (h : Drawn p x y n s t) :
    t.v[(15 : Reg)].toNat ≤ 1 ∧ (t.v[(15 : Reg)] = 1 ↔ ∃ q, SpriteSets p x y n s q ∧ pixelAt s.fb q = true) := by
  by_cases hit : ∃ q, SpriteSets p x y n s q ∧ pixelAt s.fb q = true
  · rw [h.collision hit]
    exact ⟨by decide, iff_of_true rfl hit⟩
  · rw [h.noCollision hit]
    exact ⟨by decide, iff_of_false (by decide) hit⟩

/-- Flipping the same pixels twice restores them. -/
theorem Drawn.restores (h : Drawn p x y n s t) (h' : Drawn p x y n t u)
    (hsame : ∀ q, SpriteSets p x y n t q ↔ SpriteSets p x y n s q) : u.fb = s.fb := by
  refine Framebuffer.ext fun q => ?_
  by_cases hq : SpriteSets p x y n s q
  · rw [h'.flips q ((hsame q).mpr hq), h.flips q hq, Bool.not_not]
  · rw [h'.pixel_outside (mt (hsame q).mp hq), h.pixel_outside hq]

end

/-- Settles O55: the second draw flips the same pixels, so it collides where the first met a pixel that was 0. -/
theorem drawingTwiceRestoresTheScreen : Obligations.DrawingTwiceRestoresTheScreen := by
  unfold Obligations.DrawingTwiceRestoresTheScreen
  intro p s t u x y n hn hrange hst htu hx hy
  obtain ⟨t', ht', hdrawn⟩ := execDrwUnder_drawn p.drawEdge x y hn hrange
  obtain rfl : t' = t := Host.Outcome.next.inj (ht'.symm.trans hst)
  obtain ⟨u', hu', hdrawn'⟩ := execDrwUnder_drawn p.drawEdge x y (s := t') hn (hdrawn.i ▸ hrange)
  obtain rfl : u' = u := Host.Outcome.next.inj (hu'.symm.trans htu)
  have hsame := hdrawn.spriteSets_iff hx hy
  refine ⟨hdrawn.restores hdrawn' hsame, hdrawn.vf_iff.1, hdrawn'.vf_iff.1, hdrawn.vf_iff.2,
    hdrawn'.vf_iff.2.trans (exists_congr fun q => ?_)⟩
  rw [hsame q]
  refine and_congr_right fun hq => ?_
  rw [hdrawn.flips q hq, Bool.not_eq_true']

end Sys2Proof.Machine
end

section
/-! The host interface (60_exceptions.md section 5, 70_reset_and_hazards.md): each transaction, and runs of transactions of
a machine that a STEP leaves as it is. -/

namespace Sys2Proof.Machine

/-! ## LOAD and boot (R296, R322) -/

theorem loadProgram_of_le {program : List Byte} (s : State) (h : program.length ≤ 3584) :
    loadProgram program s = some (s.setMem (s.mem.writeBytes 0x200 program)) := by
  refine if_neg ?_
  simp only [Config.programBase, Config.memSize]
  omega

theorem loadProgram_of_gt {program : List Byte} (s : State) (h : 3584 < program.length) :
    loadProgram program s = none := by
  refine if_pos ?_
  simp only [Config.programBase, Config.memSize]
  omega

/-- Settles O56: before the first STEP the length decides, after it LOAD is refused. -/
theorem loadPlacesTheProgramOrRejectsIt : Obligations.LoadPlacesTheProgramOrRejectsIt := by
  unfold Obligations.LoadPlacesTheProgramOrRejectsIt
  rintro ⟨s, stepped⟩ program
  refine ⟨?fits, ?tooLong, ?late⟩
  case fits =>
    rintro rfl hlen
    refine ⟨s.setMem (s.mem.writeBytes 0x200 program), ?_, rfl, frame_writeBytes s 0x200 program,
      Memory.read_writeBytes_at s.mem 0x200 program⟩
    simp only [transact, transactWith, loadProgram_of_le s hlen, Bool.false_eq_true, if_false]
  case tooLong =>
    rintro rfl hlen
    simp only [transact, transactWith, loadProgram_of_gt s hlen, Bool.false_eq_true, if_false]
  case late =>
    rintro rfl
    rfl

/-- Settles O57: LOAD puts the program's first two bytes where PC points after RESET. -/
theorem bootRunsTheFirstWord : Obligations.BootRunsTheFirstWord := by
  unfold Obligations.BootRunsTheFirstWord
  intro hi lo rest i hlen hd
  have hload := loadProgram_of_le State.reset (program := hi :: lo :: rest) (by simp only [List.length_cons]; omega)
  have hread := Memory.read_writeBytes_at State.reset.mem 0x200 (hi :: lo :: rest)
  have hhi := hread 0 (Nat.zero_lt_succ _)
  have hlo := hread 1 (Nat.succ_lt_succ (Nat.zero_lt_succ _))
  refine ⟨_, hload, rfl, step_of_nextIs ⟨rfl, (by decide : State.reset.pc.toNat + 1 ≤ 0xFFF), ?_⟩⟩
  rw [← hd]
  exact congrArg decode (congrArg₂ opcodeOf hhi hlo)

/-! ## The table of transactions (R290) -/

/-- This hardware's step always answers a next state (O17 at the default policies). -/
theorem step_next (s : State) : ∃ t, step s = .next t := by
  rw [step_eq_stepUnder]
  exact everyStepReachesANextState Config.policy s

theorem transact_step {c : Session} {t : State} (h : step c.machine = .next t) :
    transact .step c = .next ({ machine := t, stepped := true }, .stepped (stepReport c.machine t)) := by
  simp only [transact, transactWith, h]
  rfl

/-- Writing the keypad stays within any frame that may change every key. -/
theorem Frame.setKeys {may : Cell → Prop} {s t : State} (h : Frame may s t) (hkeys : ∀ k, may (.key k)) (key : Keypad) :
    Frame may s (t.setKeys key) := by
  intro c hc
  cases c with
  | key k => exact absurd (hkeys k) hc
  | _ => exact h _ hc

theorem soundOn_eq_decide (s : State) : soundOn s = decide (s.st ≠ 0) := by
  rw [Bool.eq_iff_iff, soundOn_iff, decide_eq_true_iff]

/-- Settles O58: STEP by O17; RESET leaves the reset state with the draws counted so far; the rest computes. -/
theorem transactionsFollowTheTable : Obligations.TransactionsFollowTheTable := by
  unfold Obligations.TransactionsFollowTheTable
  intro c
  obtain ⟨t, ht⟩ := step_next c.machine
  refine ⟨⟨t, ht, transact_step ht⟩, rfl, fun key => ⟨_, rfl, rfl, rfl, ?keys⟩, rfl, ?sound, rfl,
    State.reset.setDraws c.machine.draws, rfl, rfl, ?reset⟩
  case keys => exact (Frame.refl _ c.machine).setKeys (fun k => ⟨k, rfl⟩) key
  case sound => rw [← soundOn_eq_decide]; rfl
  case reset =>
    intro cell hcell
    cases cell with
    | draws => exact absurd rfl hcell
    | _ => rfl

/-! ## Runs of a machine that a STEP leaves as it is -/

/-- The cells the host writes without RESET and LOAD. -/
def hostCells (c : Cell) : Prop := c = .dt ∨ c = .st ∨ ∃ k, c = .key k

/-- Only those cells differ, and PC is the same. -/
def HostChange (s t : State) : Prop := t.pc = s.pc ∧ Frame hostCells s t

theorem Cell.same_trans {s t u : State} {c : Cell} (h : c.same s t) (h' : c.same t u) : c.same s u := by
  cases c <;> exact Eq.trans h' h

theorem HostChange.refl (s : State) : HostChange s s := ⟨rfl, Frame.refl _ s⟩

theorem HostChange.trans {s t u : State} (h : HostChange s t) (h' : HostChange t u) : HostChange s u :=
  ⟨h'.1.trans h.1, fun c hc => Cell.same_trans (h.2 c hc) (h'.2 c hc)⟩

theorem HostChange.fault {s t : State} (h : HostChange s t) : t.fault = s.fault :=
  h.2 .fault (by simp [hostCells])

theorem HostChange.mem_read {s t : State} (h : HostChange s t) (a : Nat) : t.mem.read a = s.mem.read a :=
  h.2 (.mem a) (by simp [hostCells])

/-- The next instruction does not depend on the timers and the keypad. -/
theorem HostChange.nextIs {s t : State} {i : Instr} (h : HostChange s t) (hi : NextIs i s) : NextIs i t := by
  unfold NextIs at hi ⊢
  simpa only [h.fault, h.1, h.mem_read] using hi

/-- Where a STEP changes nothing, no transaction but RESET and LOAD changes more than the timers and the keypad. -/
theorem transact_of_step_fixed {x : Transaction} {c : Session} (hstep : step c.machine = .next c.machine)
    (hx : x ≠ .reset ∧ ∀ b, x ≠ .load b) :
    ∃ c' r, transact x c = .next (c', r) ∧ HostChange c.machine c'.machine := by
  have hrefl := Frame.refl hostCells c.machine
  cases x with
  | step => exact ⟨_, _, transact_step hstep, HostChange.refl _⟩
  | tick => exact ⟨_, _, rfl, rfl, (hrefl.setDt (.inl rfl) _).setSt (.inr (.inl rfl)) _⟩
  | setKeys key => exact ⟨_, _, rfl, rfl, hrefl.setKeys (fun k => .inr (.inr ⟨k, rfl⟩)) key⟩
  | readFb | soundOn | readFault => exact ⟨_, _, rfl, HostChange.refl _⟩
  | load program => exact absurd rfl (hx.2 program)
  | reset => exact absurd rfl hx.1

/-- A condition under which a STEP changes nothing, and which the timers and the keypad do not enter, holds through
every run of transactions without RESET and LOAD. -/
theorem transactAll_of_step_fixed {P : State → Prop} (hfixed : ∀ s, P s → step s = .next s)
    (hhost : ∀ s t, HostChange s t → P s → P t) (xs : List Transaction) (c : Session) (hP : P c.machine)
    (hxs : ∀ x ∈ xs, x ≠ .reset ∧ ∀ b, x ≠ .load b) :
    ∃ c', transactAll xs c = .next c' ∧ P c'.machine ∧ HostChange c.machine c'.machine := by
  induction xs generalizing c with
  | nil => exact ⟨c, rfl, hP, HostChange.refl _⟩
  | cons x xs ih =>
    obtain ⟨hx, hxs⟩ := List.forall_mem_cons.mp hxs
    obtain ⟨c₁, r, htransact, hchange⟩ := transact_of_step_fixed (hfixed _ hP) hx
    obtain ⟨c', hrest, hP', hchange'⟩ := ih c₁ (hhost _ _ hchange hP) hxs
    refine ⟨c', ?_, hP', hchange.trans hchange'⟩
    simp only [transactAll, htransact, hrest]

/-- Settles O59: a halted step changes nothing, and the record is not the host's to write. -/
theorem haltedUntilReset : Obligations.HaltedUntilReset := by
  unfold Obligations.HaltedUntilReset
  intro xs c hhalted hxs
  have hfixed (s : State) (h : Halted s) : step s = .next s := by
    obtain ⟨r, hr⟩ := Option.ne_none_iff_exists'.mp h
    exact (haltedStepChangesNothing s r hr).1
  have hhost (s t : State) (hchange : HostChange s t) (h : Halted s) : Halted t := by
    rwa [Halted, hchange.fault]
  obtain ⟨c', hrun, -, hpc, hframe⟩ := transactAll_of_step_fixed hfixed hhost xs c hhalted hxs
  exact ⟨c', hrun, hpc, hframe⟩

/-- Settles O60: a jump to itself changes nothing, and its word is not the host's to write. -/
theorem parkedStaysParked : Obligations.ParkedStaysParked := by
  unfold Obligations.ParkedStaysParked
  intro xs c hparked hxs
  have hfixed (s : State) (h : Parked s) : step s = .next s := by
    have hpc : s.pc.toNat ≤ 0xFFF := Nat.le_of_succ_le h.2.1
    rw [step_of_nextIs h]
    exact (jumpGoesToItsAddress s s.pc.toNat hpc).2.2 rfl
  have hhost (s t : State) (hchange : HostChange s t) (h : Parked s) : Parked t := by
    rw [Parked, hchange.1]
    exact hchange.nextIs h
  obtain ⟨c', hrun, hparked', hpc, hframe⟩ := transactAll_of_step_fixed hfixed hhost xs c hparked hxs
  exact ⟨c', hrun, hparked', hpc, hframe⟩

end Sys2Proof.Machine
end
